-- ==== Sys2Proof/Word.lean ====
section
/-! DEFINITION. The two word types of the block: the byte of the buffers and the 32-bit register. -/

namespace Sys2Proof

/-- One byte of IBUF or OBUF, a character code included (10_state.md R31, R32; 40_datapath.md R90). -/
abbrev Byte := BitVec 8

/-- One register of the bank, moved whole (10_state.md R23; 20_memory.md R52). -/
abbrev Word := BitVec 32

end Sys2Proof
end

