-- ==== Sys2Proof/Syntax.lean ====
section
/-! DEFINITION. The commands of the block: one constructor per row of spec/opcode_table.json. -/

namespace Sys2Proof

/-- The alphabet a command selects with its `A` bit (30_encoding.md R72). -/
inductive Alphabet where
  /-- `A = 0`: the 43-character alphabet. -/
  | alpha43
  /-- `A = 1`: the 44-character alphabet. -/
  | alpha44
deriving DecidableEq, Repr

/-- The six commands (30_encoding.md R71). `bits` is the number in the field BITS (R73); it is part
of the command for ENCB and DECB only. -/
inductive Instr where
  /-- `ENC.a`, byte-pair encode (41_bytepair.md R111). -/
  | enc (a : Alphabet)
  /-- `DEC.a`, byte-pair decode (41_bytepair.md R113). -/
  | dec (a : Alphabet)
  /-- `ENCB.a bits`, fixed-bit-width encode (42_fixedwidth.md R131). -/
  | encb (a : Alphabet) (bits : Nat)
  /-- `DECB.a bits`, fixed-bit-width decode (42_fixedwidth.md R133). -/
  | decb (a : Alphabet) (bits : Nat)
  /-- `ENC103.a`, 103-bit encode (43_fixed103.md R151). -/
  | enc103 (a : Alphabet)
  /-- `DEC103.a`, 103-bit decode (43_fixed103.md R152). -/
  | dec103 (a : Alphabet)
deriving DecidableEq, Repr

end Sys2Proof
end

