-- ==== Sys2Proof/WellFormed.lean ====
section
/-! DEFINITION. Which terms of Instr stand for a command word. -/

namespace Sys2Proof

/-- The bit count fits the 8-bit field BITS, an unsigned number 0 to 255 (30_encoding.md R73). The values
0 and 129 to 255 are legal encodings: they run, and fault BAD_BITS. -/
def Instr.wellFormed : Instr → Bool
  | .enc _ => true
  | .dec _ => true
  | .encb _ bits => decide (bits < 256)
  | .decb _ bits => decide (bits < 256)
  | .enc103 _ => true
  | .dec103 _ => true

end Sys2Proof
end

