-- ==== Sys2Proof/Decode.lean ====
section
/-! DEFINITION. The command word (30_encoding.md §1, §2): the decoder, which rejects a reserved encoding by
name, and the encoder. A command is one 32-bit word moved whole, so no byte order enters
(20_memory.md R52). -/

namespace Sys2Proof

/-- `w[hi:lo]`, the unsigned number made of bits `hi` down to `lo` (00_scope.md R8). -/
def bitField (w : Word) (hi lo : Nat) : Nat :=
  w.toNat / 2 ^ lo % 2 ^ (hi + 1 - lo)

/-- RSV, bits 31:12 (30_encoding.md R70). -/
def rsvField (w : Word) : Nat := bitField w 31 12

/-- OP, bits 11:9 (30_encoding.md R71). -/
def opField (w : Word) : Nat := bitField w 11 9

/-- A, bit 8 (30_encoding.md R72). -/
def alphaField (w : Word) : Alphabet := if bitField w 8 8 = 0 then .alpha43 else .alpha44

/-- BITS, bits 7:0 (30_encoding.md R73). -/
def bitsField (w : Word) : Nat := bitField w 7 0

/-- Why a word is a reserved encoding (30_encoding.md R74). -/
inductive Reserved where
  /-- R74 (a): RSV is not zero. -/
  | rsvNotZero
  /-- R74 (b): OP is 0b000 or 0b111. -/
  | opReserved
  /-- R74 (c): OP is ENC, DEC, ENC103 or DEC103 and BITS is not zero. -/
  | bitsNotZero
deriving DecidableEq, Repr

/-- A command that takes no bit count: BITS must be zero (30_encoding.md R73, R74 (c)). -/
def withoutBits (w : Word) (i : Instr) : Except Reserved Instr :=
  if bitsField w = 0 then .ok i else .error .bitsNotZero

/-- The command a word encodes, or the reason it is a reserved encoding (30_encoding.md R70 to R75). -/
def decode (w : Word) : Except Reserved Instr :=
  if rsvField w ≠ 0 then .error .rsvNotZero
  else
    match opField w with
    | 1 => withoutBits w (.enc (alphaField w))
    | 2 => withoutBits w (.dec (alphaField w))
    | 3 => .ok (.encb (alphaField w) (bitsField w))
    | 4 => .ok (.decb (alphaField w) (bitsField w))
    | 5 => withoutBits w (.enc103 (alphaField w))
    | 6 => withoutBits w (.dec103 (alphaField w))
    | _ => .error .opReserved

/-- The instruction in the `nbits` low bits of `w`, every bit above them zero. Every command is one 32-bit
word (30_encoding.md R75). -/
def decodeTableWord (nbits w : Nat) : Option Instr :=
  let v := w % 2 ^ nbits
  if v < 2 ^ 32 then (decode (BitVec.ofNat 32 v)).toOption else none

/-- The number in the field A (30_encoding.md R72). -/
def Alphabet.bit : Alphabet → Nat
  | .alpha43 => 0
  | .alpha44 => 1

/-- The number in the field OP (30_encoding.md R71). -/
def Instr.op : Instr → Nat
  | .enc _ => 1
  | .dec _ => 2
  | .encb _ _ => 3
  | .decb _ _ => 4
  | .enc103 _ => 5
  | .dec103 _ => 6

/-- The alphabet a command selects. -/
def Instr.alphabet : Instr → Alphabet
  | .enc a => a
  | .dec a => a
  | .encb a _ => a
  | .decb a _ => a
  | .enc103 a => a
  | .dec103 a => a

/-- The number in the field BITS: the bit count of ENCB and DECB, zero elsewhere (30_encoding.md R73). -/
def Instr.bitsValue : Instr → Nat
  | .enc _ => 0
  | .dec _ => 0
  | .encb _ bits => bits
  | .decb _ bits => bits
  | .enc103 _ => 0
  | .dec103 _ => 0

/-- `word = OP * 512 + A * 256 + BITS` (30_encoding.md R70). -/
def encode (i : Instr) : Word :=
  BitVec.ofNat 32 (i.op * 512 + i.alphabet.bit * 256 + i.bitsValue)

end Sys2Proof
end

