-- ==== Sys2Proof/Config.lean ====
section
/-! DEFINITION. What an implementation fixes (00_scope.md R6) and the free values of the model: the
constants without a body are values the spec leaves open, and no proof can see what they are. -/

namespace Sys2Proof.Config

/-- How far IBUF_CAP lies above 24, the least value it may have. Open (00_scope.md R6, 92_eei_decisions.md
D3): no value is chosen, so what is proved holds for every capacity. Assumption 2. Its bound keeps OBUF_CAP a number
that the 32 bits of OLEN can hold (10_state.md R30). DEDUCED, assumption 5. -/
opaque ibufExtra : Fin 2863311507

/-- IBUF_CAP, the capacity of the input buffer in bytes: at least 24 (00_scope.md R6), at most 2863311530
(assumption 5). -/
def ibufCap : Nat := ibufExtra.val + 24

/-- OBUF_CAP = ceil(3 * IBUF_CAP / 2) (00_scope.md R6, 10_state.md R32). -/
def obufCap : Nat := (3 * ibufCap + 1) / 2

/-- The contents of the two alphabet ROMs, a parameter of the block (00_scope.md R6, 10_state.md R34):
character `i` of an alphabet is entry `i`. -/
structure Tables where
  /-- ALPHA43, 43 entries. -/
  alpha43 : List Byte
  /-- ALPHA44, 44 entries. -/
  alpha44 : List Byte
deriving DecidableEq, Repr

/-- What IBUF holds at an index that no host write has set since the reset numbered `epoch`: any value,
fixed until it is written or the block is reset (70_reset_and_hazards.md R192, U4, U5). Assumption 3. -/
opaque unwrittenIbuf : (epoch : Nat) → (index : Nat) → Byte

/-- The byte that the host read numbered `n` of an unspecified byte returns (20_memory.md R55, R57, R60,
U2, U3, U13). Assumption 4. -/
opaque unspecifiedByte : (n : Nat) → Byte

/-- The word that the host read numbered `n` of an unspecified register returns (20_memory.md R57, R58,
U3, U9, U11). Assumption 4. -/
opaque unspecifiedWord : (n : Nat) → Word

/-- What an alphabet ROM gives at an address it has no entry for; it "is never presented"
(40_datapath.md R95). Assumption 11. -/
opaque beyondRom : (address : Nat) → Byte

end Sys2Proof.Config
end

