-- ==== Sys2Proof/Machine/Tables.lean ====
section
/-! DEFINITION. The constant tables of the block (10_state.md R34): the default alphabet ROMs
(40_datapath.md R94) and the digit-count ROM (R101). -/

namespace Sys2Proof.Machine

/-- ALPHA43, the default contents: `0`-`9`, `A`-`Z`, then `%*+-./:` (40_datapath.md R94). PRESUMED by the spec
but for the entries of R92; unsafe. Assumptions 1 and 16. -/
def alpha43Rom : List Byte :=
  [0x30, 0x31, 0x32, 0x33, 0x34, 0x35, 0x36, 0x37, 0x38, 0x39] ++
  [0x41, 0x42, 0x43, 0x44, 0x45, 0x46, 0x47, 0x48, 0x49, 0x4A, 0x4B, 0x4C, 0x4D] ++
  [0x4E, 0x4F, 0x50, 0x51, 0x52, 0x53, 0x54, 0x55, 0x56, 0x57, 0x58, 0x59, 0x5A] ++
  [0x25, 0x2A, 0x2B, 0x2D, 0x2E, 0x2F, 0x3A]

/-- ALPHA44, the default contents: `0`-`9`, `A`-`Z`, then `$%*+-./:` (40_datapath.md R94). PRESUMED by the spec
but for the entries of R93; unsafe. Assumptions 1 and 16. -/
def alpha44Rom : List Byte :=
  [0x30, 0x31, 0x32, 0x33, 0x34, 0x35, 0x36, 0x37, 0x38, 0x39] ++
  [0x41, 0x42, 0x43, 0x44, 0x45, 0x46, 0x47, 0x48, 0x49, 0x4A, 0x4B, 0x4C, 0x4D] ++
  [0x4E, 0x4F, 0x50, 0x51, 0x52, 0x53, 0x54, 0x55, 0x56, 0x57, 0x58, 0x59, 0x5A] ++
  [0x24, 0x25, 0x2A, 0x2B, 0x2D, 0x2E, 0x2F, 0x3A]

/-- The tables the block is built with. -/
def romTables : Config.Tables where
  alpha43 := alpha43Rom
  alpha44 := alpha44Rom

/-- The upper ends of the rows of the digit-count table, the row of `D = 1` first (40_datapath.md R101). -/
def digitRows : Alphabet → List Nat
  | .alpha43 =>
    [5, 10, 16, 21, 27, 32, 37, 43, 48, 54, 59, 65] ++
    [70, 75, 81, 86, 92, 97, 103, 108, 113, 119, 124, 128]
  | .alpha44 =>
    [5, 10, 16, 21, 27, 32, 38, 43, 49, 54, 60, 65] ++
    [70, 76, 81, 87, 92, 98, 103, 109, 114, 120, 125, 128]

/-- `DIGITS(N, bits)`: the row of the table that `bits` falls in, one more than the rows that end below it
(40_datapath.md R101). -/
def digitCount (a : Alphabet) (bits : Nat) : Nat :=
  ((digitRows a).filter (fun e => decide (e < bits))).length + 1

end Sys2Proof.Machine
end

