-- ==== Sys2Proof/Machine/Datapath.lean ====
section
/-! DEFINITION. The arithmetic primitives the commands are built from (40_datapath.md §2 to §6). They take the
alphabet tables as an argument, so that a claim can hold for every table or name the one it rests on. All
numbers are unsigned and unbounded (R104). -/

namespace Sys2Proof.Machine

/-- The radix `N = 43 + A` (30_encoding.md R72). -/
def radix : Alphabet → Nat
  | .alpha43 => 43
  | .alpha44 => 44

/-- The ROM of the selected alphabet (40_datapath.md R95). -/
def romOf (T : Config.Tables) : Alphabet → List Byte
  | .alpha43 => T.alpha43
  | .alpha44 => T.alpha44

/-- `CHR_A(d)`, digit value to character (40_datapath.md R95). -/
def chr (T : Config.Tables) (a : Alphabet) (d : Nat) : Byte :=
  (romOf T a)[d]?.getD (Config.beyondRom d)

/-- The place of a character in a ROM, counted from `i`. -/
def indexFrom (c : Byte) : Nat → List Byte → Option Nat
  | _, [] => none
  | i, x :: xs => if x = c then some i else indexFrom c (i + 1) xs

/-- `VAL_A(c)`, character to digit value, `none` for `invalid` (40_datapath.md R96). -/
def val (T : Config.Tables) (a : Alphabet) (c : Byte) : Option Nat :=
  indexFrom c 0 (romOf T a)

/-- `DIVMOD_N(x) = (x div N, x mod N)` (40_datapath.md R97). -/
def divmod (a : Alphabet) (x : Nat) : Nat × Nat :=
  (x / radix a, x % radix a)

/-- `MAC_N(v, d)`: `v * N + d` taken exactly, `none` for `overflow` when it is `2^128` or more
(40_datapath.md R99). -/
def mac (a : Alphabet) (v d : Nat) : Option Nat :=
  if v * radix a + d < 2 ^ 128 then some (v * radix a + d) else none

/-- `PACK_LE(b)`, the integer `sum of b[i] * 2^(8i)` (40_datapath.md R102). -/
def packLE : List Byte → Nat
  | [] => 0
  | b :: bs => b.toNat + 256 * packLE bs

/-- `UNPACK_LE(v, k)`: byte `i` is `(v div 2^(8i)) mod 256` (40_datapath.md R103). -/
def unpackLE (v k : Nat) : List Byte :=
  (List.range k).map fun i => BitVec.ofNat 8 (v / 2 ^ (8 * i) % 256)

/-- The `k` digits of `v` that `k` steps of DIVMOD extract, least significant first (40_datapath.md R97;
42_fixedwidth.md R131). -/
def extractDigits (a : Alphabet) : (k v : Nat) → List Nat
  | 0, _ => []
  | k + 1, v => (divmod a v).2 :: extractDigits a k (divmod a v).1

/-- The characters of a list of digits extracted least significant first, written most significant first
(20_memory.md R51 (e)). -/
def writeMsbFirst (T : Config.Tables) (a : Alphabet) (ds : List Nat) : List Byte :=
  ds.reverse.map (chr T a)

end Sys2Proof.Machine
end

