-- ==== Sys2Proof/Machine/State.lean ====
section
/-! DEFINITION. Everything the spec gives the block to hold (10_state.md R37), the model's own fields that
stand for the block's surroundings, and the state after reset. -/

namespace Sys2Proof.Machine

/-- STATUS.STATE, the operating state (10_state.md R26). -/
inductive OpState where
  /-- Reset has happened and no command has completed since. -/
  | idle
  /-- A command has been accepted and has not completed. -/
  | busy
  /-- The last accepted command has completed. -/
  | done
  /-- A command ended in a fault; nothing more is accepted until reset. -/
  | fault
deriving DecidableEq, Repr

/-- The recoverable error kinds (10_state.md R27, 60_exceptions.md R160 to R162). -/
inductive ErrKind where
  /-- A character outside the selected alphabet (R160). -/
  | invalidChar
  /-- A structurally incomplete string (R161). -/
  | dangling
  /-- A decoded value too large for its group or width (R162). -/
  | overflow
deriving DecidableEq, Repr

/-- The causes of a fault (10_state.md R28, 60_exceptions.md R163 to R165, R169). -/
inductive Cause where
  /-- The command word is a reserved encoding (R163). -/
  | illegalCmd
  /-- BITS is outside 1..128 on ENCB or DECB (R165). -/
  | badBits
  /-- ILEN is not allowed for the command (R164). -/
  | badLen
  /-- The packed input of a fixed-bit-width encode is 2^bits or more (R169). -/
  | excess
deriving DecidableEq, Repr

/-- STATUS.ERR: OK or an error kind (10_state.md R27). -/
inductive ErrField where
  | ok
  | err (kind : ErrKind)
deriving DecidableEq, Repr

/-- STATUS.FCAUSE: NONE or a cause (10_state.md R28); the codes 5 to 7 are never written. Assumption 12. -/
inductive FCauseField where
  | none
  | cause (c : Cause)
deriving DecidableEq, Repr

/-- A buffer: the bytes it is known to hold, each with its index, indices strictly rising. An index that is
not listed holds an unspecified byte (10_state.md R31, R32). Assumptions 3 and 17. -/
abbrev Memory := List Host.Cell

/-- The indices of a buffer's list rise strictly: the one form in which a buffer is written down. No entry can
equal what an unlisted index reads as, because an unlisted index reads as no fixed byte. -/
def Memory.wf : Memory → Bool
  | [] => true
  | [_] => true
  | c :: d :: m => decide (c.1 < d.1) && Memory.wf (d :: m)

/-- The host's actions (20_memory.md R54 to R58). Indices and register numbers are natural numbers: those the
block does not have are answered as R57 says. Assumption 13. -/
inductive HostAction where
  /-- `HostWriteIBUF(i, b)` (R54). -/
  | writeIbuf (i : Nat) (b : Byte)
  /-- `HostReadIBUF(i)` (R55). -/
  | readIbuf (i : Nat)
  /-- `HostReadOBUF(i)` (R55). -/
  | readObuf (i : Nat)
  /-- `HostWriteReg(r, v)` (R56; `r = 0` is the command issue, 30_encoding.md R76). -/
  | writeReg (r : Nat) (v : Word)
  /-- `HostReadReg(r)` (R58). -/
  | readReg (r : Nat)
deriving DecidableEq, Repr

/-- One move of the whole system (20_memory.md R60, R61; 70_reset_and_hazards.md R190, R196). -/
inductive Move where
  /-- The host takes an action. -/
  | host (act : HostAction)
  /-- The engine has the turn: it completes a command in flight, if there is one. -/
  | engine
  /-- The reset input is raised. -/
  | reset
deriving DecidableEq, Repr

/-- What a host read returns: a byte of a buffer or a register. -/
inductive Answer where
  | byte (b : Byte)
  | word (w : Word)
deriving DecidableEq, Repr

/-- The block and, in the last four fields, the model's own record of what surrounds it. -/
structure State where
  /-- CMD, register 0: the last accepted command word (10_state.md R24). -/
  cmd : Word
  /-- STATUS.STATE (R26). -/
  opState : OpState
  /-- STATUS.ERR (R27). -/
  err : ErrField
  /-- STATUS.FCAUSE (R28). -/
  fcause : FCauseField
  /-- ILEN, register 2: the number of valid bytes in IBUF (R29). -/
  ilen : Word
  /-- OLEN, register 3: the number of valid bytes in OBUF (R30). -/
  olen : Word
  /-- IBUF: the bytes the host has written since reset (R31). -/
  ibuf : Memory
  /-- OBUF: the bytes of the last result (R32). -/
  obuf : Memory
  /-- MODEL'S OWN: how many resets there have been; it selects the unspecified contents of IBUF. Assumption 3. -/
  epoch : Nat
  /-- MODEL'S OWN: how many unspecified host reads have been answered. Assumption 4. -/
  fresh : Nat
  /-- MODEL'S OWN: what the last host read returned. Assumption 7. -/
  answer : Option Answer
  /-- MODEL'S OWN: the moves still to come, the next one first. Assumption 6. -/
  schedule : List Move
deriving DecidableEq, Repr

/-- Reasons the machine stops with a fault: NONE. A fault of the spec puts the block in the state FAULT, which
is a next state of the model (60_exceptions.md R168), and the block is never stuck (70_reset_and_hazards.md
R196). Safe: the model stops nowhere. Assumption 9. -/
inductive Fault where
deriving DecidableEq, Repr

/-- Reasons the model gives no meaning. -/
inductive Refusal where
  /-- An instruction without a meaning yet; raised by an arm of `exec` and by nothing else. Safe. No arm raises it. -/
  | notModelled (mnemonic : String)
deriving DecidableEq, Repr

/-- The block right after power-on reset (70_reset_and_hazards.md R190, R191): every register zero, both
buffers unspecified. The model's own fields start empty (assumption 8). -/
def State.reset : State where
  cmd := 0#32
  opState := .idle
  err := .ok
  fcause := .none
  ilen := 0#32
  olen := 0#32
  ibuf := []
  obuf := []
  epoch := 0
  fresh := 0
  answer := none
  schedule := []

end Sys2Proof.Machine
end

