-- ==== Sys2Proof/Machine/Ops.lean ====
section
/-! DEFINITION. The operations the commands and the host actions are built from: buffer accesses, the named
updates of the state, the three completions (60_exceptions.md R166 to R168) and reset (70_reset_and_hazards.md
R190). -/

namespace Sys2Proof.Machine

/-- The listed byte at an index, `none` where nothing is listed. -/
def Memory.find : Memory → Nat → Option Byte
  | [], _ => none
  | (j, b) :: m, i => if j = i then some b else Memory.find m i

/-- `BUF[i] <- b`: one byte, every other index as it was (00_scope.md R9, 20_memory.md R53). -/
def Memory.write : Memory → Nat → Byte → Memory
  | [], i, b => [(i, b)]
  | (j, c) :: m, i, b =>
    if i < j then (i, b) :: (j, c) :: m
    else if i = j then (i, b) :: m
    else (j, c) :: Memory.write m i b

/-- A buffer that holds the bytes of a sequence from index `i` on and nothing else that is specified. -/
def Memory.holding : (i : Nat) → List Byte → Memory
  | _, [] => []
  | i, b :: bs => (i, b) :: Memory.holding (i + 1) bs

/-- How a command ends (00_scope.md R10). -/
inductive Result where
  /-- `return Ok(bytes)`. -/
  | ok (out : List Byte)
  /-- `raise Err(kind)`. -/
  | err (kind : ErrKind)
  /-- `raise Fault(cause)`. -/
  | fault (c : Cause)
deriving DecidableEq, Repr

/-- Completion with a result (60_exceptions.md R166): OBUF holds the result from index 0 and is unspecified
beyond it, OLEN its length, which 32 bits can hold (assumption 5). -/
def finishOk (out : List Byte) (s : State) : State :=
  { s with
    obuf := Memory.holding 0 out
    olen := BitVec.ofNat 32 out.length
    err := .ok
    opState := .done }

/-- Completion with a recoverable error (60_exceptions.md R167): no output, the code in ERR. -/
def finishErr (kind : ErrKind) (s : State) : State :=
  { s with
    obuf := []
    olen := 0#32
    err := .err kind
    opState := .done }

/-- TAKING A FAULT (60_exceptions.md R168), the one way every fault of every command is taken: the cause in
FCAUSE, the state FAULT; ERR, OLEN, CMD, ILEN and IBUF are kept and OBUF stays unspecified. Nothing is saved and
control goes nowhere (R173). -/
def takeFault (c : Cause) (s : State) : State :=
  { s with
    obuf := []
    fcause := .cause c
    opState := .fault }

/-- The completion step's write for each outcome (60_exceptions.md §3). -/
def complete : Result → State → State
  | .ok out, s => finishOk out s
  | .err kind, s => finishErr kind s
  | .fault c, s => takeFault c s

/-- Reset, the only way out of FAULT (60_exceptions.md R174; 70_reset_and_hazards.md R190): one atomic step from
any state. The contents of IBUF may differ at each reset (R192): the epoch counts up. -/
def resetBlock (s : State) : State :=
  { s with
    cmd := 0#32
    opState := .idle
    err := .ok
    fcause := .none
    ilen := 0#32
    olen := 0#32
    ibuf := []
    obuf := []
    epoch := s.epoch + 1 }

/-- The block takes the host's writes: STATE is IDLE or DONE (20_memory.md R54, R56; 30_encoding.md R76). -/
def accepts (s : State) : Bool :=
  match s.opState with
  | .idle => true
  | .busy => false
  | .done => true
  | .fault => false

/-- The accepted command issue (30_encoding.md R76): the word is stored whatever it is, and OBUF becomes
unspecified. -/
def acceptCmd (w : Word) (s : State) : State :=
  { s with
    cmd := w
    opState := .busy
    obuf := [] }

/-- `ILEN <- v` (20_memory.md R56). -/
def setIlen (v : Word) (s : State) : State := { s with ilen := v }

/-- `IBUF[i] <- b` (20_memory.md R54). -/
def putIbuf (i : Nat) (b : Byte) (s : State) : State := { s with ibuf := s.ibuf.write i b }

/-- A host read returns a specified value; nothing of the block changes (20_memory.md R60). -/
def giveAnswer (v : Answer) (s : State) : State := { s with answer := some v }

/-- A host read returns an unspecified value, and the next such read is free to return another
(20_memory.md R60). -/
def drawAnswer (v : Answer) (s : State) : State :=
  { s with
    answer := some v
    fresh := s.fresh + 1 }

/-- The first move of the schedule has been taken up. -/
def popMove (s : State) : State := { s with schedule := s.schedule.tail }

end Sys2Proof.Machine
end

