-- ==== Sys2Proof/Machine/Operands.lean ====
section
/-! DEFINITION. The operands of a command: the input length and the input bytes (10_state.md R29, R31, R35), and
the one check every command shares. -/

namespace Sys2Proof.Machine

/-- `IBUF[i]`: the byte the host wrote there, else the unspecified byte it holds since reset
(10_state.md R31; 70_reset_and_hazards.md R192). -/
def ibufByte (s : State) (i : Nat) : Byte :=
  (s.ibuf.find i).getD (Config.unwrittenIbuf s.epoch i)

/-- `I = IBUF[0 .. ILEN-1]` (30_encoding.md R77). -/
def inputBytes (s : State) : List Byte :=
  (List.range s.ilen.toNat).map (ibufByte s)

/-- `Exec` from its step 2 on (30_encoding.md R77): BAD_LEN for an input that IBUF cannot hold, else the command's own
function of the input. -/
def outcomeOf (f : List Byte → Result) (s : State) : Result :=
  if Config.ibufCap < s.ilen.toNat then .fault .badLen else f (inputBytes s)

/-- The completion of a legal command whose function of the input is `f` (60_exceptions.md §3). -/
def runCommand (f : List Byte → Result) (s : State) : Host.Outcome State Fault Refusal :=
  .next (complete (outcomeOf f s) s)

end Sys2Proof.Machine
end

