-- ==== Sys2Proof/Machine/BytePair.lean ====
section
/-! DEFINITION. The byte-pair commands ENC and DEC (41_bytepair.md). -/

namespace Sys2Proof.Machine

/-- The three characters of a pair, least significant digit first (41_bytepair.md R111). -/
def encodePair (T : Config.Tables) (a : Alphabet) (hi lo : Byte) : List Byte :=
  let x := hi.toNat * 256 + lo.toNat
  let q1 := (divmod a x).1
  [chr T a (divmod a x).2, chr T a (divmod a q1).2, chr T a (divmod a q1).1]

/-- The two characters of a last odd byte (41_bytepair.md R111). -/
def encodeSingle (T : Config.Tables) (a : Alphabet) (b : Byte) : List Byte :=
  [chr T a (divmod a b.toNat).2, chr T a (divmod a b.toNat).1]

/-- `ENC_A(I)` without its `Ok`: the whole string (41_bytepair.md R111). -/
def encodeBytes (T : Config.Tables) (a : Alphabet) : List Byte → List Byte
  | [] => []
  | [b] => encodeSingle T a b
  | hi :: lo :: rest => encodePair T a hi lo ++ encodeBytes T a rest

/-- `ENC_A(I)` (41_bytepair.md R111): it never fails. -/
def encResult (T : Config.Tables) (a : Alphabet) (input : List Byte) : Result :=
  .ok (encodeBytes T a input)

/-- One triple of characters (41_bytepair.md R113): every character is looked up before the value is formed
(60_exceptions.md R171 (c)). -/
def decodeTriple (T : Config.Tables) (a : Alphabet) (c0 c1 c2 : Byte) : Except ErrKind (List Byte) :=
  match val T a c0, val T a c1, val T a c2 with
  | some v0, some v1, some v2 =>
    let x := v2 * radix a * radix a + v1 * radix a + v0
    if 65535 < x then .error .overflow
    else .ok [BitVec.ofNat 8 (x / 256), BitVec.ofNat 8 (x % 256)]
  | _, _, _ => .error .invalidChar

/-- The last two characters (41_bytepair.md R113). -/
def decodeLastPair (T : Config.Tables) (a : Alphabet) (c0 c1 : Byte) : Except ErrKind (List Byte) :=
  match val T a c0, val T a c1 with
  | some v0, some v1 =>
    let x := v1 * radix a + v0
    if 255 < x then .error .overflow else .ok [BitVec.ofNat 8 x]
  | _, _ => .error .invalidChar

/-- One leftover character: never a byte (41_bytepair.md R113, 60_exceptions.md R161). -/
def decodeLeftover (T : Config.Tables) (a : Alphabet) (c : Byte) : Except ErrKind (List Byte) :=
  match val T a c with
  | some _ => .error .dangling
  | none => .error .invalidChar

/-- `DEC_A(I)` group by group in string order; the first group that fails ends it (41_bytepair.md R113,
60_exceptions.md R171 (b)). -/
def decodeGroups (T : Config.Tables) (a : Alphabet) : List Byte → Except ErrKind (List Byte)
  | [] => .ok []
  | [c] => decodeLeftover T a c
  | [c0, c1] => decodeLastPair T a c0 c1
  | c0 :: c1 :: c2 :: rest =>
    match decodeTriple T a c0 c1 c2 with
    | .error k => .error k
    | .ok bytes =>
      match decodeGroups T a rest with
      | .error k => .error k
      | .ok more => .ok (bytes ++ more)

/-- `DEC_A(I)` (41_bytepair.md R113). -/
def decResult (T : Config.Tables) (a : Alphabet) (input : List Byte) : Result :=
  match decodeGroups T a input with
  | .ok out => .ok out
  | .error k => .err k

/-- `ENC.a` (41_bytepair.md R110 to R112). -/
def execEnc (a : Alphabet) (s : State) : Host.Outcome State Fault Refusal :=
  runCommand (encResult romTables a) s

/-- `DEC.a` (41_bytepair.md R110, R113, R114). -/
def execDec (a : Alphabet) (s : State) : Host.Outcome State Fault Refusal :=
  runCommand (decResult romTables a) s

end Sys2Proof.Machine
end

