-- ==== Sys2Proof/Machine/FixedWidth.lean ====
section
/-! DEFINITION. The fixed-bit-width commands ENCB and DECB (42_fixedwidth.md). -/

namespace Sys2Proof.Machine

/-- `bits` is outside 1 to 128 (30_encoding.md R73, 60_exceptions.md R165). -/
def badBitCount (bits : Nat) : Bool := decide (bits < 1) || decide (128 < bits)

/-- `ENCB_A(bits, I)` (42_fixedwidth.md R131), its fault checks in the order of 60_exceptions.md R170. -/
def encbResult (T : Config.Tables) (a : Alphabet) (bits : Nat) (input : List Byte) : Result :=
  if badBitCount bits then .fault .badBits
  else if 16 < input.length then .fault .badLen
  else if 2 ^ bits ≤ packLE input then .fault .excess
  else .ok (writeMsbFirst T a (extractDigits a (digitCount a bits) (packLE input)))

/-- The accumulation of DECB and DEC103, left to right from the value `v`: at each character the lookup, then the
multiply-add with its overflow check (42_fixedwidth.md R133, 60_exceptions.md R171 (b), (d)). -/
def accumulate (T : Config.Tables) (a : Alphabet) : (v : Nat) → List Byte → Except ErrKind Nat
  | v, [] => .ok v
  | v, c :: cs =>
    match val T a c with
    | none => .error .invalidChar
    | some d =>
      match mac a v d with
      | none => .error .overflow
      | some w => accumulate T a w cs

/-- `DECB_A(bits, I)` (42_fixedwidth.md R133): no length check, the range check last. -/
def decbResult (T : Config.Tables) (a : Alphabet) (bits : Nat) (input : List Byte) : Result :=
  if badBitCount bits then .fault .badBits
  else
    match accumulate T a 0 input with
    | .error k => .err k
    | .ok v =>
      if bits < 128 ∧ 2 ^ bits ≤ v then .err .overflow
      else .ok (unpackLE v ((bits + 7) / 8))

/-- `ENCB.a bits` (42_fixedwidth.md R130 to R132). -/
def execEncb (a : Alphabet) (bits : Nat) (s : State) : Host.Outcome State Fault Refusal :=
  runCommand (encbResult romTables a bits) s

/-- `DECB.a bits` (42_fixedwidth.md R130, R133, R134). -/
def execDecb (a : Alphabet) (bits : Nat) (s : State) : Host.Outcome State Fault Refusal :=
  runCommand (decbResult romTables a bits) s

end Sys2Proof.Machine
end

