-- ==== Sys2Proof/Machine/Fixed103.lean ====
section
/-! DEFINITION. The 103-bit commands ENC103 and DEC103 (43_fixed103.md). -/

namespace Sys2Proof.Machine

/-- `ENC103_A(I)` (43_fixed103.md R151): exactly 13 bytes, exactly 19 digits. -/
def enc103Result (T : Config.Tables) (a : Alphabet) (input : List Byte) : Result :=
  if input.length ≠ 13 then .fault .badLen
  else if 2 ^ 103 ≤ packLE input then .fault .excess
  else .ok (writeMsbFirst T a (extractDigits a 19 (packLE input)))

/-- `DEC103_A(I)` (43_fixed103.md R152): the length check first, whatever the characters; the residual check
beyond the 13th byte is written although it can never fire (R153). -/
def dec103Result (T : Config.Tables) (a : Alphabet) (input : List Byte) : Result :=
  if input.length ≠ 19 then .err .dangling
  else
    match accumulate T a 0 input with
    | .error k => .err k
    | .ok v =>
      if 2 ^ 103 ≤ v then .err .overflow
      else if v / 2 ^ 104 ≠ 0 then .err .overflow
      else .ok (unpackLE v 13)

/-- `ENC103.a` (43_fixed103.md R150, R151). -/
def execEnc103 (a : Alphabet) (s : State) : Host.Outcome State Fault Refusal :=
  runCommand (enc103Result romTables a) s

/-- `DEC103.a` (43_fixed103.md R150, R152). -/
def execDec103 (a : Alphabet) (s : State) : Host.Outcome State Fault Refusal :=
  runCommand (dec103Result romTables a) s

end Sys2Proof.Machine
end

