-- ==== Sys2Proof/Machine/Dispatch.lean ====
section
/-! DEFINITION. The dispatch of 30_encoding.md R77 step 3: one arm per command. -/

namespace Sys2Proof.Machine

def exec (i : Instr) (s : State) : Host.Outcome State Fault Refusal :=
  match i with
  | .enc a => Sys2Proof.Machine.execEnc a s
  | .dec a => Sys2Proof.Machine.execDec a s
  | .encb a bits => Sys2Proof.Machine.execEncb a bits s
  | .decb a bits => Sys2Proof.Machine.execDecb a bits s
  | .enc103 a => Sys2Proof.Machine.execEnc103 a s
  | .dec103 a => Sys2Proof.Machine.execDec103 a s

end Sys2Proof.Machine
end

