-- ==== Sys2Proof/Machine/Flags.lean ====
section
/-! DEFINITION. The register STATUS as the host reads it. The block has no arithmetic flags (10_state.md R22); its
condition state is the three fields of STATUS (R25). -/

namespace Sys2Proof.Machine

/-- The code of STATUS.STATE (10_state.md R26). -/
def stateCode : OpState → Nat
  | .idle => 0
  | .busy => 1
  | .done => 2
  | .fault => 3

/-- The code of STATUS.ERR (10_state.md R27). -/
def errCode : ErrField → Nat
  | .ok => 0
  | .err .invalidChar => 1
  | .err .dangling => 2
  | .err .overflow => 3

/-- The code of STATUS.FCAUSE (10_state.md R28). -/
def fcauseCode : FCauseField → Nat
  | .none => 0
  | .cause .illegalCmd => 1
  | .cause .badBits => 2
  | .cause .badLen => 3
  | .cause .excess => 4

/-- STATUS: STATE in bits 1:0, ERR in bits 3:2, FCAUSE in bits 6:4, bits 31:7 zero (10_state.md R25). -/
def statusWord (s : State) : Word :=
  BitVec.ofNat 32 (stateCode s.opState + errCode s.err * 4 + fcauseCode s.fcause * 16)

end Sys2Proof.Machine
end

