-- ==== Sys2Proof/Machine/HostPort.lean ====
section
/-! DEFINITION. The host's actions on the block (20_memory.md R54 to R58; the command issue, 30_encoding.md R76). -/

namespace Sys2Proof.Machine

/-- `HostWriteIBUF(i, b)` (20_memory.md R54, R57). -/
def hostWriteIbuf (i : Nat) (b : Byte) (s : State) : State :=
  if accepts s ∧ i < Config.ibufCap then putIbuf i b s else s

/-- `HostWriteReg(r, v)` (20_memory.md R56, R57): CMD and ILEN when the block accepts, nothing else ever. -/
def hostWriteReg (r : Nat) (v : Word) (s : State) : State :=
  match r with
  | 0 => if accepts s then acceptCmd v s else s
  | 2 => if accepts s then setIlen v s else s
  | _ => s

/-- The value of `IBUF[i]` as a host read may rely on it (20_memory.md R55): `none` at an index the buffer does
not have. -/
def ibufValue (s : State) (i : Nat) : Option Byte :=
  if i < Config.ibufCap then some (ibufByte s i) else none

/-- The value of `OBUF[i]` as a host read may rely on it: specified only when `STATE = DONE`, `ERR = OK` and
`i < OLEN` (20_memory.md R55). -/
def obufValue (s : State) (i : Nat) : Option Byte :=
  if s.opState = .done ∧ s.err = .ok ∧ i < s.olen.toNat ∧ i < Config.obufCap then s.obuf.find i else none

/-- The value of register `r` as a host read may rely on it (20_memory.md R57, R58): OLEN is unspecified while
BUSY and in FAULT, and registers 4 and up do not exist. -/
def regValue (s : State) (r : Nat) : Option Word :=
  match r with
  | 0 => some s.cmd
  | 1 => some (statusWord s)
  | 2 => some s.ilen
  | 3 => if accepts s then some s.olen else none
  | _ => none

/-- A host read of a byte: its value, or any value where it is unspecified. -/
def answerByte (v : Option Byte) (s : State) : State :=
  match v with
  | some b => giveAnswer (.byte b) s
  | none => drawAnswer (.byte (Config.unspecifiedByte s.fresh)) s

/-- A host read of a register: its value, or any value where it is unspecified. -/
def answerWord (v : Option Word) (s : State) : State :=
  match v with
  | some w => giveAnswer (.word w) s
  | none => drawAnswer (.word (Config.unspecifiedWord s.fresh)) s

/-- `HostReadIBUF(i)` (20_memory.md R55). -/
def hostReadIbuf (i : Nat) (s : State) : State := answerByte (ibufValue s i) s

/-- `HostReadOBUF(i)` (20_memory.md R55). -/
def hostReadObuf (i : Nat) (s : State) : State := answerByte (obufValue s i) s

/-- `HostReadReg(r)` (20_memory.md R58). -/
def hostReadReg (r : Nat) (s : State) : State := answerWord (regValue s r) s

/-- One host action, wholly done (20_memory.md R60). -/
def hostAct : HostAction → State → State
  | .writeIbuf i b, s => hostWriteIbuf i b s
  | .readIbuf i, s => hostReadIbuf i s
  | .readObuf i, s => hostReadObuf i s
  | .writeReg r v, s => hostWriteReg r v s
  | .readReg r, s => hostReadReg r s

end Sys2Proof.Machine
end

