-- ==== Sys2Proof/Machine/Engine.lean ====
section
/-! DEFINITION. The moves of the system: the engine's turn, a host action, reset (20_memory.md R60, R61;
60_exceptions.md §3; 70_reset_and_hazards.md R190, R196). -/

namespace Sys2Proof.Machine

/-- The completion step (60_exceptions.md §3) of the command word in CMD: a reserved encoding faults before
anything else (30_encoding.md R77 step 1, R74). -/
def completeCommand (s : State) : Host.Outcome State Fault Refusal :=
  match decode s.cmd with
  | .ok i => exec i s
  | .error _ => .next (takeFault .illegalCmd s)

/-- The engine's turn: the completion step is enabled exactly when `STATE = BUSY` (60_exceptions.md §3); in the other
states the block does nothing (R178). -/
def engineTurn (s : State) : Host.Outcome State Fault Refusal :=
  match s.opState with
  | .busy => completeCommand s
  | .idle => .next s
  | .done => .next s
  | .fault => .next s

/-- One move, taken up from the schedule. -/
def takeMove (m : Move) (s : State) : Host.Outcome State Fault Refusal :=
  match m with
  | .host act => .next (hostAct act s)
  | .engine => engineTurn s
  | .reset => .next (resetBlock s)

/-- The move that comes next: the schedule's first, and the engine's turn when the host has no more moves
(70_reset_and_hazards.md R196: the completion step is always taken in the end). Assumption 6. -/
def nextMove (s : State) : Move :=
  match s.schedule with
  | [] => .engine
  | m :: _ => m

/-- The schedule that gives the engine the next turn, everything else in its place. -/
def engineFirst : List Move → List Move
  | [] => []
  | m :: ms => .engine :: m :: ms

/-- A command word in CMD, accepted, the engine's turn next. -/
def presentCommand (w : Word) (s : State) : State :=
  { s with
    cmd := w
    opState := .busy
    schedule := engineFirst s.schedule }

end Sys2Proof.Machine
end

