-- ==== Sys2Proof/Machine/Step.lean ====
section
/-! DEFINITION. One step of the system, and the placing of one command where the next step runs it. -/

namespace Sys2Proof.Machine

/-- One step: the next move of the schedule is taken up and made (20_memory.md R60, R61). -/
def step (s : State) : Host.Outcome State Fault Refusal :=
  takeMove (nextMove s) (popMove s)

/-- `s` with the command word `w mod 2^nbits` in CMD, as an accepted host write leaves it (30_encoding.md R76), so
that the very next step is its completion step. Assumption 6. -/
def State.withFetchWord (s : State) (nbits w : Nat) : State :=
  presentCommand (BitVec.ofNat 32 (w % 2 ^ nbits)) s

end Sys2Proof.Machine
end

