-- ==== Sys2Proof/Safety.lean ====
section
/-! DEFINITION. The terms in which claims about the block are stated: the spec's one outcome function, the invariant of
every reachable state, the transitions of the operating state, the tables the parameters may be, and the numbers a
string or a buffer stands for. No definition of the machine uses these. -/

namespace Sys2Proof

open Sys2Proof.Machine

/-- The word is a reserved encoding, read off its fields (30_encoding.md R74 (a) to (c)). -/
abbrev ReservedWord (w : Word) : Prop :=
  w.extractLsb' 12 20 ≠ 0 ∨
  (w.extractLsb' 9 3 = 0 ∨ w.extractLsb' 9 3 = 7) ∨
  ((w.extractLsb' 9 3 = 1 ∨ w.extractLsb' 9 3 = 2 ∨ w.extractLsb' 9 3 = 5 ∨ w.extractLsb' 9 3 = 6) ∧
    w.extractLsb' 0 8 ≠ 0)

/-- The alphabet bit of a word as an alphabet (30_encoding.md R72). -/
def alphabetOfBit (b : Bool) : Alphabet := if b then .alpha44 else .alpha43

/-- `Exec(w, L, I)`, step by step from the raw fields of the word (30_encoding.md R77). -/
def specExec (w : Word) (len : Nat) (input : List Byte) : Result :=
  if ReservedWord w then .fault .illegalCmd
  else if Config.ibufCap < len then .fault .badLen
  else
    let a := alphabetOfBit (w.getLsbD 8)
    let bits := (w.extractLsb' 0 8).toNat
    match (w.extractLsb' 9 3).toNat with
    | 1 => encResult romTables a input
    | 2 => decResult romTables a input
    | 3 => encbResult romTables a bits input
    | 4 => decbResult romTables a bits input
    | 5 => enc103Result romTables a input
    | _ => dec103Result romTables a input

/-- The bytes a command is given: `IBUF[0 .. min(L, IBUF_CAP) - 1]` (30_encoding.md R77). -/
def commandInput (s : State) : List Byte :=
  (List.range (min s.ilen.toNat Config.ibufCap)).map (ibufByte s)

/-- The operating state after a move, given the one before it (10_state.md R26): reset goes to IDLE from any state, an
accepted CMD write from IDLE or DONE to BUSY, the completion step from BUSY to DONE or FAULT, and nothing else moves. -/
def AllowedTransition (m : Move) (before after : OpState) : Prop :=
  match m with
  | .reset => after = .idle
  | .engine => if before = .busy then after = .done ∨ after = .fault else after = before
  | .host (.writeReg 0 _) => if before = .idle ∨ before = .done then after = .busy else after = before
  | .host _ => after = before

/-- What holds of the block at reset and after every step. -/
structure Inv (s : State) : Prop where
  /-- IBUF is written down in its one form. -/
  ibufWf : Memory.wf s.ibuf = true
  /-- IBUF has no byte beyond its capacity (10_state.md R31). -/
  ibufRange : ∀ c ∈ s.ibuf, c.1 < Config.ibufCap
  /-- OBUF holds a result from index 0 that fits its capacity, and OLEN counts it when it is valid (R30, R32). -/
  obufHolds : ∃ out : List Byte, s.obuf = Memory.holding 0 out ∧ out.length ≤ Config.obufCap ∧
    (s.opState = .done → s.err = .ok → s.olen.toNat = out.length)
  /-- OBUF is specified only after a command that returned a result (R32). -/
  obufOnlyResult : s.obuf ≠ [] → s.opState = .done ∧ s.err = .ok
  /-- An error leaves OLEN zero (60_exceptions.md R167). -/
  errNoOutput : s.opState = .done → s.err ≠ .ok → s.olen = 0#32
  /-- FCAUSE is nonzero exactly when STATE = FAULT (R28). -/
  faultCause : s.fcause ≠ .none ↔ s.opState = .fault
  /-- IDLE is as reset left it, but for IBUF and ILEN (R24, R26, R27). -/
  idleClean : s.opState = .idle → s.cmd = 0#32 ∧ s.err = .ok ∧ s.olen = 0#32

/-- A state in which the block takes commands or is working on one: no contract violation has happened. -/
def Safe (s : State) : Prop := s.opState ≠ .fault

/-- An ASCII digit, uppercase letter or punctuation character; no blank, no lowercase letter (40_datapath.md R91 (b)). -/
def AlphabetChar (c : Byte) : Prop :=
  0x21 ≤ c.toNat ∧ c.toNat ≤ 0x7E ∧ ¬ (0x61 ≤ c.toNat ∧ c.toNat ≤ 0x7A)

/-- The constraints on an alphabet ROM by itself (40_datapath.md R91 (a), (b)). -/
structure LegalRom (n : Nat) (rom : List Byte) : Prop where
  length : rom.length = n
  distinct : rom.Nodup
  chars : ∀ c ∈ rom, AlphabetChar c

/-- The tables the parameter may be (40_datapath.md R91, R92, R93). The codes are the characters' ASCII codes (R90). -/
structure LegalTables (T : Config.Tables) : Prop where
  rom43 : LegalRom 43 T.alpha43
  rom44 : LegalRom 44 T.alpha44
  /-- R91 (c), (e): `$` is in the 44-alphabet only. -/
  dollar : (0x24 : Byte) ∉ T.alpha43 ∧ (0x24 : Byte) ∈ T.alpha44
  /-- R91 (d): the 44-alphabet is the 43-alphabet with one more character. -/
  superset : ∀ c, c ∈ T.alpha44 ↔ c ∈ T.alpha43 ∨ c = 0x24
  /-- R92: the entries the source's vectors fix, index and code; and `A` is a member. -/
  fixed43 : ∀ p ∈ [(0, 0x30), (1, 0x31), (3, 0x33), (5, 0x35), (19, 0x4A), (22, 0x4D), (35, 0x5A), (40, 0x2E),
    (41, 0x2F), (42, 0x3A)], T.alpha43[(p.1 : Nat)]? = some (p.2 : Byte)
  memberA : (0x41 : Byte) ∈ T.alpha43
  /-- R93: the entries the source's vectors fix, index and code. -/
  fixed44 : ∀ p ∈ [(1, 0x31), (5, 0x35), (19, 0x4A), (21, 0x4C), (33, 0x58), (35, 0x5A), (37, 0x25)],
    T.alpha44[(p.1 : Nat)]? = some (p.2 : Byte)

/-- The number written by digits most significant first (20_memory.md R51 (e)). -/
def valueMsb (N : Nat) (ds : List Nat) : Nat := ds.foldl (fun v d => v * N + d) 0

/-- The number of the first `j` of the digits `d 0, d 1, …`, most significant first. -/
def prefixValue (N : Nat) (d : Nat → Nat) (j : Nat) : Nat := valueMsb N ((List.range j).map d)

/-- The number of the first `len` input bytes, little-endian (40_datapath.md R102). -/
def inputValue (s : State) (len : Nat) : Nat :=
  ∑ k ∈ Finset.range len, (ibufByte s k).toNat * 2 ^ (8 * k)

/-- The value `v2 * N * N + v1 * N + v0` of the three input characters at `i`, `none` if one of them is outside the
alphabet (41_bytepair.md R113). -/
def tripleAt (a : Alphabet) (s : State) (i : Nat) : Option Nat :=
  match val romTables a (ibufByte s i), val romTables a (ibufByte s (i + 1)), val romTables a (ibufByte s (i + 2)) with
  | some v0, some v1, some v2 => some (v2 * radix a * radix a + v1 * radix a + v0)
  | _, _, _ => none

/-- The value `v1 * N + v0` of the two input characters at `i`, `none` if one of them is outside the alphabet
(41_bytepair.md R113). -/
def pairAt (a : Alphabet) (s : State) (i : Nat) : Option Nat :=
  match val romTables a (ibufByte s i), val romTables a (ibufByte s (i + 1)) with
  | some v0, some v1 => some (v1 * radix a + v0)
  | _, _ => none

/-- The state the completion step leaves for a result (60_exceptions.md R166), field by field. -/
def withResult (s : State) (out : List Byte) (len : Word) : State :=
  { s with obuf := Memory.holding 0 out, olen := len, err := .ok, opState := .done }

/-- The state the completion step leaves for a recoverable error (60_exceptions.md R167), field by field. -/
def withError (s : State) (k : ErrKind) : State :=
  { s with obuf := [], olen := 0#32, err := .err k, opState := .done }

/-- The state the completion step leaves for a fault (60_exceptions.md R168), field by field. -/
def withFault (s : State) (c : Cause) : State :=
  { s with obuf := [], fcause := .cause c, opState := .fault }

end Sys2Proof
end

