-- ==== Sys2Proof/Certificates/Slice0/Obligations.lean ====
section
/-! DEFINITION. The statements about the block for the provers. Each docstring names the rule of spec/ it rests on. A
value the spec leaves open is a free value of the model: no statement fixes one. -/

open Sys2Proof Sys2Proof.Machine

/-! ### The command word -/

/-- No bit of an encoding is dropped: a well-formed command is what its word decodes to (30_encoding.md R70 to R74). -/
def Obligations.DecodeOfEncode : Prop :=
  ∀ i : Instr, i.wellFormed = true → decode (encode i) = .ok i

/-- Every legal word is the word of the command it decodes to (30_encoding.md R70 to R75). -/
def Obligations.EncodeOfDecode : Prop :=
  ∀ (w : Word) (i : Instr), decode w = .ok i → i.wellFormed = true ∧ encode i = w

/-- The decoder refuses exactly the reserved encodings (30_encoding.md R74 (a) to (c)). -/
def Obligations.DecoderRefusesExactlyReserved : Prop :=
  ∀ w : Word, (∃ r, decode w = .error r) ↔ ReservedWord w

/-- 1032 words are legal, and 520 of them never fault BAD_BITS (30_encoding.md R74, its count). -/
def Obligations.LegalWordCounts : Prop :=
  (∃ l : List Word, l.Nodup ∧ l.length = 1032 ∧ ∀ w, w ∈ l ↔ ∃ i, decode w = .ok i) ∧
  (∃ l : List Word, l.Nodup ∧ l.length = 520 ∧ ∀ w, w ∈ l ↔ ∃ i, decode w = .ok i ∧
    ∀ s t : State, s.fcause = .none → exec i s = .next t → t.fcause ≠ .cause .badBits)

/-- The example words of 30_encoding.md R78 decode to the commands they are written beside. -/
def Obligations.ExampleWordsDecode : Prop :=
  decode 0x00000200#32 = .ok (.enc .alpha43) ∧ decode 0x00000300#32 = .ok (.enc .alpha44) ∧
  decode 0x00000400#32 = .ok (.dec .alpha43) ∧ decode 0x00000500#32 = .ok (.dec .alpha44) ∧
  decode 0x00000667#32 = .ok (.encb .alpha43 103) ∧ decode 0x00000767#32 = .ok (.encb .alpha44 103) ∧
  decode 0x00000808#32 = .ok (.decb .alpha43 8) ∧ decode 0x00000980#32 = .ok (.decb .alpha44 128) ∧
  decode 0x00000A00#32 = .ok (.enc103 .alpha43) ∧ decode 0x00000B00#32 = .ok (.enc103 .alpha44) ∧
  decode 0x00000C00#32 = .ok (.dec103 .alpha43) ∧ decode 0x00000D00#32 = .ok (.dec103 .alpha44)

/-! ### Steps -/

/-- A step runs the decoded command: when the block is BUSY and the engine has the turn, the step is the execution of
the command in CMD, the move taken off the schedule (60_exceptions.md §3; the schedule is assumption 6). -/
def Obligations.StepRunsDecodedCommand : Prop :=
  ∀ (s : State) (i : Instr), s.opState = .busy → (s.schedule = [] ∨ s.schedule.head? = some .engine) →
    decode s.cmd = .ok i → step s = exec i { s with schedule := s.schedule.tail }

/-- A reserved encoding in CMD faults when it runs (30_encoding.md R74, 60_exceptions.md R163, R168). -/
def Obligations.ReservedWordFaults : Prop :=
  ∀ s : State, s.opState = .busy → (s.schedule = [] ∨ s.schedule.head? = some .engine) → ReservedWord s.cmd →
    step s = .next (withFault { s with schedule := s.schedule.tail } .illegalCmd)

/-- Outside BUSY the engine's turn changes nothing: the completion step is enabled exactly when STATE = BUSY
(60_exceptions.md §3, R178; the schedule is assumption 6). -/
def Obligations.EngineRestsUnlessBusy : Prop :=
  ∀ s : State, s.opState ≠ .busy → (s.schedule = [] ∨ s.schedule.head? = some .engine) →
    step s = .next { s with schedule := s.schedule.tail }

/-- A step whose next move is a host action or a reset makes it, wholly and alone (20_memory.md R60, R61;
70_reset_and_hazards.md R190; the schedule is assumption 6). -/
def Obligations.StepMakesHostActionOrReset : Prop :=
  ∀ (s : State) (rest : List Move),
    (∀ act : HostAction, s.schedule = .host act :: rest →
      step s = .next (hostAct act { s with schedule := rest })) ∧
    (s.schedule = .reset :: rest → step s = .next (resetBlock { s with schedule := rest }))

/-- The completion step applies `Exec` to CMD, ILEN and IBUF and writes its outcome, nothing else: a result
(60_exceptions.md R166), an error (R167) or a fault (R168), `Exec` taken from the raw fields of the word
(30_encoding.md R77). OLEN is the length of the result (assumption 5 bounds the capacity of IBUF). -/
def Obligations.CompletionStepIsExec : Prop :=
  ∀ s : State, s.opState = .busy → (s.schedule = [] ∨ s.schedule.head? = some .engine) →
    match specExec s.cmd s.ilen.toNat (commandInput s) with
    | .ok out => ∃ n : Word, n.toNat = out.length ∧
        step s = .next (withResult { s with schedule := s.schedule.tail } out n)
    | .err k => step s = .next (withError { s with schedule := s.schedule.tail } k)
    | .fault c => step s = .next (withFault { s with schedule := s.schedule.tail } c)

/-- The engine always completes: once every scheduled move and one more has been made, no command is in flight
(70_reset_and_hazards.md R196; the schedule is assumption 6). -/
def Obligations.EngineAlwaysCompletes : Prop :=
  ∀ s : State, ∃ t, Host.Core.run core (s.schedule.length + 1) s = .next t ∧ t.opState ≠ .busy

/-! ### ENC -/

/-- ENC on every input that fits IBUF (41_bytepair.md R111, R112; 60_exceptions.md R166): `3 * floor(L/2) + 2 * (L mod 2)`
characters, for each pair its three digits least significant first, for a last odd byte its two. OLEN is that length (assumption 5
bounds the capacity of IBUF, so that 32 bits can hold it). -/
def Obligations.EncCompletes : Prop :=
  ∀ (a : Alphabet) (s : State), s.ilen.toNat ≤ Config.ibufCap →
    ∃ (out : List Byte) (n : Word), exec (.enc a) s = .next (withResult s out n) ∧
      out.length = 3 * (s.ilen.toNat / 2) + 2 * (s.ilen.toNat % 2) ∧
      n.toNat = out.length ∧
      (∀ k, 2 * k + 1 < s.ilen.toNat →
        let x := (ibufByte s (2 * k)).toNat * 256 + (ibufByte s (2 * k + 1)).toNat
        out[3 * k]? = some (chr romTables a (x % radix a)) ∧
        out[3 * k + 1]? = some (chr romTables a (x / radix a % radix a)) ∧
        out[3 * k + 2]? = some (chr romTables a (x / radix a / radix a))) ∧
      (s.ilen.toNat % 2 = 1 →
        let x := (ibufByte s (s.ilen.toNat - 1)).toNat
        out[s.ilen.toNat / 2 * 3]? = some (chr romTables a (x % radix a)) ∧
        out[s.ilen.toNat / 2 * 3 + 1]? = some (chr romTables a (x / radix a)))

/-- Every character ENC, ENCB and ENC103 write is a member of the selected alphabet, whatever legal tables the block
has (41_bytepair.md R112, 42_fixedwidth.md R132). -/
def Obligations.EncodersWriteAlphabetCharacters : Prop :=
  ∀ (T : Config.Tables) (a : Alphabet) (bits : Nat) (input out : List Byte), LegalTables T →
    (encResult T a input = .ok out ∨ encbResult T a bits input = .ok out ∨ enc103Result T a input = .ok out) →
    ∀ c ∈ out, c ∈ romOf T a

/-! ### DEC -/

/-- DEC on a string of valid groups (41_bytepair.md R113; 60_exceptions.md R166): each triple gives its value's high
byte and low byte, a last pair its value; never a length of 1 modulo 3. -/
def Obligations.DecCompletes : Prop :=
  ∀ (a : Alphabet) (s : State) (x : Nat → Nat), s.ilen.toNat ≤ Config.ibufCap → s.ilen.toNat % 3 ≠ 1 →
    (∀ k, 3 * k + 2 < s.ilen.toNat → tripleAt a s (3 * k) = some (x k) ∧ x k ≤ 65535) →
    (s.ilen.toNat % 3 = 2 → pairAt a s (s.ilen.toNat / 3 * 3) = some (x (s.ilen.toNat / 3)) ∧
      x (s.ilen.toNat / 3) ≤ 255) →
    ∃ out : List Byte, exec (.dec a) s = .next (withResult s out (BitVec.ofNat 32 out.length)) ∧
      out.length = 2 * (s.ilen.toNat / 3) + (if s.ilen.toNat % 3 = 2 then 1 else 0) ∧
      (∀ k, 3 * k + 2 < s.ilen.toNat → out[2 * k]?.map BitVec.toNat = some (x k / 256) ∧
        out[2 * k + 1]?.map BitVec.toNat = some (x k % 256)) ∧
      (s.ilen.toNat % 3 = 2 → out[2 * (s.ilen.toNat / 3)]?.map BitVec.toNat = some (x (s.ilen.toNat / 3)))

/-- The first group of a string that fails decides the error of DEC, whatever follows it, and inside a group the lookups
come before the value (41_bytepair.md R113; 60_exceptions.md R160 to R162, R167, R171 (b), (c)). -/
def Obligations.DecStopsAtFirstBadGroup : Prop :=
  ∀ (a : Alphabet) (s : State) (j : Nat), s.ilen.toNat ≤ Config.ibufCap →
    (∀ k, k < j → ∃ x, tripleAt a s (3 * k) = some x ∧ x ≤ 65535) →
    (3 * j + 2 < s.ilen.toNat → tripleAt a s (3 * j) = none → exec (.dec a) s = .next (withError s .invalidChar)) ∧
    (3 * j + 2 < s.ilen.toNat → ∀ x, tripleAt a s (3 * j) = some x → 65535 < x →
      exec (.dec a) s = .next (withError s .overflow)) ∧
    (3 * j + 1 = s.ilen.toNat → val romTables a (ibufByte s (3 * j)) = none →
      exec (.dec a) s = .next (withError s .invalidChar)) ∧
    (3 * j + 1 = s.ilen.toNat → val romTables a (ibufByte s (3 * j)) ≠ none →
      exec (.dec a) s = .next (withError s .dangling)) ∧
    (3 * j + 2 = s.ilen.toNat → pairAt a s (3 * j) = none → exec (.dec a) s = .next (withError s .invalidChar)) ∧
    (3 * j + 2 = s.ilen.toNat → ∀ x, pairAt a s (3 * j) = some x → 255 < x →
      exec (.dec a) s = .next (withError s .overflow))

/-! ### ENCB and DECB -/

/-- ENCB on a value that fits (42_fixedwidth.md R131, R132; 60_exceptions.md R166): DIGITS(N, bits) characters, whose
digits, most significant first, write the whole little-endian value of the input. -/
def Obligations.EncbCompletes : Prop :=
  ∀ (a : Alphabet) (bits : Nat) (s : State), 1 ≤ bits → bits ≤ 128 → s.ilen.toNat ≤ 16 →
    inputValue s s.ilen.toNat < 2 ^ bits →
    ∃ ds : List Nat,
      exec (.encb a bits) s =
        .next (withResult s (ds.map (chr romTables a)) (BitVec.ofNat 32 (digitCount a bits))) ∧
      ds.length = digitCount a bits ∧ (∀ d ∈ ds, d < radix a) ∧
      valueMsb (radix a) ds = inputValue s s.ilen.toNat

/-- Where ENCB faults, and in which order the checks come (42_fixedwidth.md R131; 60_exceptions.md R168, R170). -/
def Obligations.EncbFaultsInOrder : Prop :=
  ∀ (a : Alphabet) (bits : Nat) (s : State), s.ilen.toNat ≤ Config.ibufCap →
    (bits = 0 ∨ 128 < bits → exec (.encb a bits) s = .next (withFault s .badBits)) ∧
    (1 ≤ bits → bits ≤ 128 → 16 < s.ilen.toNat → exec (.encb a bits) s = .next (withFault s .badLen)) ∧
    (1 ≤ bits → bits ≤ 128 → s.ilen.toNat ≤ 16 → 2 ^ bits ≤ inputValue s s.ilen.toNat →
      exec (.encb a bits) s = .next (withFault s .excess))

/-- OLEN after ENCB is DIGITS(N, bits), the unique least D with `N^D > 2^bits - 1`, from 1 to 24, whatever the value, and
every character is in the selected alphabet (42_fixedwidth.md R132). -/
def Obligations.EncbResultLength : Prop :=
  ∀ (a : Alphabet) (bits : Nat) (s t : State), exec (.encb a bits) s = .next t → t.opState = .done →
    t.olen.toNat = digitCount a bits ∧ 1 ≤ t.olen.toNat ∧ t.olen.toNat ≤ 24 ∧
    2 ^ bits - 1 < radix a ^ t.olen.toNat ∧ (∀ D, D < t.olen.toNat → radix a ^ D ≤ 2 ^ bits - 1) ∧
    ∀ j, j < t.olen.toNat → ∃ c, t.obuf.find j = some c ∧ c ∈ romOf romTables a

/-- DECB on a string of valid characters whose value is below `2^bits` (42_fixedwidth.md R133, R134;
60_exceptions.md R166): ceil(bits / 8) bytes, byte `i` the bits `[8i, 8i+8)` of the value. -/
def Obligations.DecbCompletes : Prop :=
  ∀ (a : Alphabet) (bits : Nat) (s : State) (d : Nat → Nat), 1 ≤ bits → bits ≤ 128 →
    s.ilen.toNat ≤ Config.ibufCap → (∀ k, k < s.ilen.toNat → val romTables a (ibufByte s k) = some (d k)) →
    prefixValue (radix a) d s.ilen.toNat < 2 ^ bits →
    ∃ out : List Byte, exec (.decb a bits) s = .next (withResult s out (BitVec.ofNat 32 ((bits + 7) / 8))) ∧
      out.length = (bits + 7) / 8 ∧
      ∀ i, i < (bits + 7) / 8 →
        out[i]?.map BitVec.toNat = some (prefixValue (radix a) d s.ilen.toNat / 2 ^ (8 * i) % 256)

/-- The first character that fails decides the error of DECB, the lookup before the multiply-add; the range check comes
last (42_fixedwidth.md R133; 60_exceptions.md R160, R162, R167, R171 (b), (d), (e)). The first `j` characters are valid
and their value fits the accumulator. -/
def Obligations.DecbStopsAtFirstBadCharacter : Prop :=
  ∀ (a : Alphabet) (bits : Nat) (s : State) (d : Nat → Nat) (j : Nat), 1 ≤ bits → bits ≤ 128 →
    s.ilen.toNat ≤ Config.ibufCap → (∀ k, k < j → val romTables a (ibufByte s k) = some (d k)) →
    prefixValue (radix a) d j < 2 ^ 128 →
    (j < s.ilen.toNat → val romTables a (ibufByte s j) = none →
      exec (.decb a bits) s = .next (withError s .invalidChar)) ∧
    (j < s.ilen.toNat → ∀ e, val romTables a (ibufByte s j) = some e →
      2 ^ 128 ≤ prefixValue (radix a) d j * radix a + e → exec (.decb a bits) s = .next (withError s .overflow)) ∧
    (j = s.ilen.toNat → bits < 128 → 2 ^ bits ≤ prefixValue (radix a) d j →
      exec (.decb a bits) s = .next (withError s .overflow))

/-- DECB with a bit count outside 1 to 128 faults before any character is looked up (42_fixedwidth.md R133;
60_exceptions.md R165, R168, R170). -/
def Obligations.DecbFaultsOnBitCount : Prop :=
  ∀ (a : Alphabet) (bits : Nat) (s : State), s.ilen.toNat ≤ Config.ibufCap → (bits = 0 ∨ 128 < bits) →
    exec (.decb a bits) s = .next (withFault s .badBits)

/-- OLEN after a DECB result is ceil(bits / 8), from 1 to 16, whatever the string (42_fixedwidth.md R134). -/
def Obligations.DecbResultLength : Prop :=
  ∀ (a : Alphabet) (bits : Nat) (s t : State), exec (.decb a bits) s = .next t → t.opState = .done → t.err = .ok →
    t.olen.toNat = (bits + 7) / 8 ∧ 1 ≤ t.olen.toNat ∧ t.olen.toNat ≤ 16

/-! ### ENC103 and DEC103 -/

/-- ENC103 on 13 bytes below `2^103` (43_fixed103.md R151; 60_exceptions.md R166): 19 characters, whose digits, most
significant first, write the value. -/
def Obligations.Enc103Completes : Prop :=
  ∀ (a : Alphabet) (s : State), s.ilen.toNat = 13 → inputValue s 13 < 2 ^ 103 →
    ∃ ds : List Nat,
      exec (.enc103 a) s = .next (withResult s (ds.map (chr romTables a)) 19#32) ∧
      ds.length = 19 ∧ (∀ d ∈ ds, d < radix a) ∧ valueMsb (radix a) ds = inputValue s 13

/-- Where ENC103 faults: any length but 13, then bit 103 of the value, which is bit 7 of the last byte (43_fixed103.md
R151; 60_exceptions.md R168, R170). -/
def Obligations.Enc103FaultsInOrder : Prop :=
  ∀ (a : Alphabet) (s : State),
    (s.ilen.toNat ≠ 13 → exec (.enc103 a) s = .next (withFault s .badLen)) ∧
    (s.ilen.toNat = 13 → (ibufByte s 12).getLsbD 7 = true → exec (.enc103 a) s = .next (withFault s .excess))

/-- DEC103 on 19 valid characters whose value is below `2^103` (43_fixed103.md R152; 60_exceptions.md R166): 13 bytes,
little-endian. -/
def Obligations.Dec103Completes : Prop :=
  ∀ (a : Alphabet) (s : State) (d : Nat → Nat), s.ilen.toNat = 19 →
    (∀ k, k < 19 → val romTables a (ibufByte s k) = some (d k)) → prefixValue (radix a) d 19 < 2 ^ 103 →
    ∃ out : List Byte, exec (.dec103 a) s = .next (withResult s out 13#32) ∧ out.length = 13 ∧
      ∀ i, i < 13 → out[i]?.map BitVec.toNat = some (prefixValue (radix a) d 19 / 2 ^ (8 * i) % 256)

/-- Where DEC103 ends in an error: a length other than 19 whatever the characters, then the first invalid character,
then a value of `2^103` or more (43_fixed103.md R152; 60_exceptions.md R160 to R162, R167, R171 (a)). -/
def Obligations.Dec103ErrorsInOrder : Prop :=
  ∀ (a : Alphabet) (s : State), s.ilen.toNat ≤ Config.ibufCap →
    (s.ilen.toNat ≠ 19 → exec (.dec103 a) s = .next (withError s .dangling)) ∧
    (s.ilen.toNat = 19 → (∃ k, k < 19 ∧ val romTables a (ibufByte s k) = none) →
      exec (.dec103 a) s = .next (withError s .invalidChar)) ∧
    (s.ilen.toNat = 19 → ∀ d : Nat → Nat, (∀ k, k < 19 → val romTables a (ibufByte s k) = some (d k)) →
      2 ^ 103 ≤ prefixValue (radix a) d 19 → exec (.dec103 a) s = .next (withError s .overflow))

/-- The accumulator check and the residual check of DEC103 can never fire, whatever legal tables the block has
(43_fixed103.md R153, an inference the spec marks as derived). -/
def Obligations.Dec103ChecksNeverFire : Prop :=
  ∀ (T : Config.Tables) (a : Alphabet) (input : List Byte), LegalTables T → input.length = 19 →
    accumulate T a 0 input ≠ .error .overflow ∧ ∀ v, accumulate T a 0 input = .ok v → v / 2 ^ 104 = 0

/-- The 103-bit commands are ENCB and DECB at 103 bits but for their length checks (30_encoding.md R79, an inference the
spec marks as derived). -/
def Obligations.Fixed103IsFixedWidthAt103 : Prop :=
  ∀ (a : Alphabet) (s : State),
    (s.ilen.toNat = 13 → exec (.enc103 a) s = exec (.encb a 103) s) ∧
    (s.ilen.toNat = 19 → exec (.dec103 a) s = exec (.decb a 103) s)

/-! ### Faults, errors, frames -/

/-- An input that IBUF cannot hold faults BAD_LEN on every command, before the command's own checks (30_encoding.md R77
step 2; 60_exceptions.md R164 (a), R170). -/
def Obligations.OversizedInputFaults : Prop :=
  ∀ (i : Instr) (s : State), Config.ibufCap < s.ilen.toNat → exec i s = .next (withFault s .badLen)

/-- The causes of the FCAUSE codes 3 (BAD_LEN), 2 (BAD_BITS) and 4 (EXCESS) are exactly those of the spec, the checks in
their order, and a legal word never faults with code 1, ILLEGAL_CMD (60_exceptions.md R163, R164, R165, R169, R170; the
codes, 10_state.md R28). -/
def Obligations.FaultCausesExact : Prop :=
  ∀ (i : Instr) (s t : State), s.fcause = .none → exec i s = .next t →
    ((statusWord t).extractLsb' 4 3 = 3 ↔ Config.ibufCap < s.ilen.toNat ∨
      (∃ a bits, i = .encb a bits ∧ 1 ≤ bits ∧ bits ≤ 128 ∧ 16 < s.ilen.toNat) ∨
      (∃ a, i = .enc103 a ∧ s.ilen.toNat ≠ 13)) ∧
    ((statusWord t).extractLsb' 4 3 = 2 ↔ s.ilen.toNat ≤ Config.ibufCap ∧
      ∃ a bits, (i = .encb a bits ∨ i = .decb a bits) ∧ (bits = 0 ∨ 128 < bits)) ∧
    ((statusWord t).extractLsb' 4 3 = 4 ↔
      (∃ a bits, i = .encb a bits ∧ 1 ≤ bits ∧ bits ≤ 128 ∧ s.ilen.toNat ≤ 16 ∧
        2 ^ bits ≤ inputValue s s.ilen.toNat) ∨
      (∃ a, i = .enc103 a ∧ s.ilen.toNat = 13 ∧ 2 ^ 103 ≤ inputValue s 13)) ∧
    (statusWord t).extractLsb' 4 3 ≠ 1

/-- Which command can end in which error: the encoders in none, DECB never in DANGLING, DANGLING only for the lengths the
spec names, INVALID_CHAR only if some input character is outside the alphabet (60_exceptions.md R160 to R162). -/
def Obligations.ErrorKindsHaveTheirCauses : Prop :=
  ∀ (i : Instr) (s t : State), exec i s = .next t → t.opState = .done →
    (t.err ≠ .ok → ∃ a, i = .dec a ∨ (∃ bits, i = .decb a bits) ∨ i = .dec103 a) ∧
    (t.err = .err .dangling → ∃ a, (i = .dec a ∧ s.ilen.toNat % 3 = 1) ∨ (i = .dec103 a ∧ s.ilen.toNat ≠ 19)) ∧
    (t.err = .err .invalidChar → ∃ k, k < s.ilen.toNat ∧ val romTables i.alphabet (ibufByte s k) = none)

/-- The frame of all six commands: CMD, ILEN and every byte of IBUF are kept; the completion writes STATE, and either a
result with ERR, OLEN and OBUF from index 0, or an error with ERR and OLEN = 0, or a fault with FCAUSE alone; every byte
of OBUF that is no part of a result is unspecified (60_exceptions.md R166 to R168). OLEN counts every result, the
capacity of IBUF being bounded (assumption 5). -/
def Obligations.CommandFrame : Prop :=
  ∀ (i : Instr) (s t : State), exec i s = .next t →
    t.cmd = s.cmd ∧ t.ilen = s.ilen ∧ t.ibuf = s.ibuf ∧ (∀ k, ibufByte t k = ibufByte s k) ∧
    t.epoch = s.epoch ∧ t.fresh = s.fresh ∧ t.answer = s.answer ∧ t.schedule = s.schedule ∧
    ((t.opState = .done ∧ t.err = .ok ∧ t.fcause = s.fcause ∧
        ∃ out : List Byte, t.olen.toNat = out.length ∧ ∀ j, t.obuf.find j = out[j]?) ∨
     (t.opState = .done ∧ t.err ≠ .ok ∧ t.fcause = s.fcause ∧ t.olen = 0#32 ∧ ∀ j, t.obuf.find j = none) ∨
     (t.opState = .fault ∧ t.err = s.err ∧ t.olen = s.olen ∧ t.fcause ≠ .none ∧ ∀ j, t.obuf.find j = none))

/-- A command's outcome depends on the command, ILEN and the first ILEN bytes of IBUF alone: not on OBUF, OLEN, ERR, an
earlier command or anything else (10_state.md R35). -/
def Obligations.OutcomeDependsOnInputOnly : Prop :=
  ∀ (i : Instr) (s s' t t' : State), s.ilen = s'.ilen →
    (∀ k, k < s.ilen.toNat → ibufByte s k = ibufByte s' k) → exec i s = .next t → exec i s' = .next t' →
    t.opState = t'.opState ∧
    (t.opState = .done → t.err = t'.err ∧ t.olen = t'.olen ∧ t.obuf = t'.obuf) ∧
    (t.opState = .fault → t.fcause = t'.fcause)

/-! ### The host's actions and reset -/

/-- `HostWriteIBUF(i, b)` (20_memory.md R54): accepted in IDLE and DONE at an index of the buffer, where it sets that
byte and nothing else; otherwise without effect. -/
def Obligations.HostWriteIbufEffect : Prop :=
  ∀ (i : Nat) (b : Byte) (s : State),
    (s.opState = .idle ∨ s.opState = .done → i < Config.ibufCap →
      ∃ m : Memory, hostAct (.writeIbuf i b) s = { s with ibuf := m } ∧
        ∀ j, ibufByte { s with ibuf := m } j = if j = i then b else ibufByte s j) ∧
    (s.opState = .busy ∨ s.opState = .fault ∨ Config.ibufCap ≤ i → hostAct (.writeIbuf i b) s = s)

/-- `HostWriteReg(r, v)` (20_memory.md R56): the command issue, ILEN in IDLE and DONE, nothing else ever. -/
def Obligations.HostWriteRegEffect : Prop :=
  ∀ (r : Nat) (v : Word) (s : State),
    (s.opState = .idle ∨ s.opState = .done →
      hostAct (.writeReg 0 v) s = { s with cmd := v, opState := .busy, obuf := [] }) ∧
    (s.opState = .busy ∨ s.opState = .fault → hostAct (.writeReg 0 v) s = s) ∧
    (s.opState = .idle ∨ s.opState = .done → hostAct (.writeReg 2 v) s = { s with ilen := v }) ∧
    (s.opState = .busy ∨ s.opState = .fault → hostAct (.writeReg 2 v) s = s) ∧
    (r = 1 ∨ r = 3 ∨ 4 ≤ r → hostAct (.writeReg r v) s = s)

/-- The command issue (30_encoding.md R76): in IDLE and DONE the word is stored whatever it is, STATE becomes BUSY and
OBUF unspecified, and nothing else changes; in BUSY and FAULT there is no effect at all. -/
def Obligations.CommandIssue : Prop :=
  ∀ (w : Word) (s : State),
    (s.opState = .idle ∨ s.opState = .done →
      hostAct (.writeReg 0 w) s = { s with cmd := w, opState := .busy, obuf := [] }) ∧
    (s.opState = .busy ∨ s.opState = .fault → hostAct (.writeReg 0 w) s = s)

/-- Host reads of the buffers (20_memory.md R55): IBUF in any state; OBUF exactly when STATE = DONE, ERR = OK and the index
is below OLEN; otherwise some value (assumption 4), and nothing of the block changes: the answer is the model's own field
(assumption 7). -/
def Obligations.HostReadBufferValues : Prop :=
  ∀ (i : Nat) (s : State),
    (i < Config.ibufCap → hostAct (.readIbuf i) s = { s with answer := some (.byte (ibufByte s i)) }) ∧
    (Config.ibufCap ≤ i → ∃ b, hostAct (.readIbuf i) s = { s with answer := some (.byte b), fresh := s.fresh + 1 }) ∧
    (s.opState = .done → s.err = .ok → i < s.olen.toNat → i < Config.obufCap → ∀ b, s.obuf.find i = some b →
      hostAct (.readObuf i) s = { s with answer := some (.byte b) }) ∧
    (s.opState ≠ .done ∨ s.err ≠ .ok ∨ s.olen.toNat ≤ i ∨ Config.obufCap ≤ i →
      ∃ b, hostAct (.readObuf i) s = { s with answer := some (.byte b), fresh := s.fresh + 1 })

/-- Host reads of the registers (20_memory.md R57, R58): CMD, STATUS and ILEN exactly in every state, the reserved bits
of STATUS zero, OLEN exactly but in BUSY and FAULT; otherwise some value
(assumption 4), and nothing of the block changes: the answer is the model's own field (assumption 7). -/
def Obligations.HostReadRegValues : Prop :=
  ∀ (r : Nat) (s : State),
    hostAct (.readReg 0) s = { s with answer := some (.word s.cmd) } ∧
    hostAct (.readReg 1) s = { s with answer := some (.word (statusWord s)) } ∧
    (statusWord s).extractLsb' 7 25 = 0 ∧
    hostAct (.readReg 2) s = { s with answer := some (.word s.ilen) } ∧
    (s.opState = .idle ∨ s.opState = .done → hostAct (.readReg 3) s = { s with answer := some (.word s.olen) }) ∧
    ((s.opState = .busy ∨ s.opState = .fault) ∧ r = 3 ∨ 4 ≤ r →
      ∃ w, hostAct (.readReg r) s = { s with answer := some (.word w), fresh := s.fresh + 1 })

/-- STATUS as the host sees it (10_state.md R25, with the codes of R26 to R28; 20_memory.md R58): the three fields in their
places, bits 31:7 zero, a write without effect, a read that returns the word without side effect, zero after reset. That
the returned word is recorded in the field answer is the model's choice (assumption 7). -/
def Obligations.StatusRegister : Prop :=
  (∀ s : State,
    (statusWord s).extractLsb' 0 2 = (match s.opState with | .idle => 0 | .busy => 1 | .done => 2 | .fault => 3) ∧
    (statusWord s).extractLsb' 2 2 =
      (match s.err with | .ok => 0 | .err .invalidChar => 1 | .err .dangling => 2 | .err .overflow => 3) ∧
    (statusWord s).extractLsb' 4 3 =
      (match s.fcause with
        | .none => 0 | .cause .illegalCmd => 1 | .cause .badBits => 2 | .cause .badLen => 3 | .cause .excess => 4) ∧
    (statusWord s).extractLsb' 7 25 = 0) ∧
  (∀ (s : State) (v : Word), hostAct (.writeReg 1 v) s = s) ∧
  (∀ s : State, hostAct (.readReg 1) s = { s with answer := some (.word (statusWord s)) }) ∧
  statusWord State.reset = 0#32

/-- While BUSY and in FAULT no host action changes anything of the block: writes are dropped (70_reset_and_hazards.md R194)
and reads have no side effect (20_memory.md R60). The fields answer and fresh, which record a read, are the model's choice
(assumptions 7 and 4) and left open here; that a dropped write keeps them too is said by HostWriteIbufEffect,
HostWriteRegEffect and CommandIssue. -/
def Obligations.HostCannotTouchBusyBlock : Prop :=
  ∀ (act : HostAction) (s : State), s.opState = .busy ∨ s.opState = .fault →
    ∃ (v : Option Answer) (n : Nat), hostAct act s = { s with answer := v, fresh := n }

/-- In every reachable state every byte of a result can be read back exactly (20_memory.md R55, R61 (c); the premise is the
invariant that every step keeps, the answer the model's own field, assumption 7). -/
def Obligations.ResultBytesAreReadable : Prop :=
  ∀ (s : State) (i : Nat), Inv s → s.opState = .done → s.err = .ok → i < s.olen.toNat →
    ∃ b, s.obuf.find i = some b ∧ hostAct (.readObuf i) s = { s with answer := some (.byte b) }

/-- The reset values, after power-on and after a later reset from any state: every register is zero, STATE is IDLE, ERR is
OK, FCAUSE is NONE, and no byte of IBUF or OBUF is specified (70_reset_and_hazards.md R191, R190). -/
def Obligations.ResetValues : Prop :=
  ∀ s t : State, t = State.reset ∨ t = resetBlock s →
    t.cmd = 0#32 ∧ t.opState = .idle ∧ t.err = .ok ∧ t.fcause = .none ∧ statusWord t = 0#32 ∧
    t.ilen = 0#32 ∧ t.olen = 0#32 ∧ t.ibuf = [] ∧ t.obuf = []

/-! ### Invariants and whole-machine rules -/

/-- The invariant holds right after reset. -/
def Obligations.InvariantAtReset : Prop := Inv State.reset

/-- Every step, whichever move it takes up, keeps the invariant: the buffers in their one form and within their capacity,
OLEN counting the result OBUF holds, FCAUSE nonzero exactly in FAULT, IDLE clean (10_state.md R24, R26 to R28, R30 to
R32; 60_exceptions.md R166 to R168). -/
def Obligations.StepKeepsInvariant : Prop :=
  ∀ s t : State, Inv s → step s = .next t → Inv t

/-- The operating state makes exactly the transitions of 10_state.md R26, in every step from every state. -/
def Obligations.TransitionsExact : Prop :=
  ∀ s t : State, step s = .next t → AllowedTransition (nextMove s) s.opState t.opState

/-- A fault is sticky until reset: as long as no reset comes, no number of steps leaves FAULT or changes the cause, CMD,
ILEN, IBUF, ERR or OLEN (60_exceptions.md R168, R174). -/
def Obligations.FaultIsStickyUntilReset : Prop :=
  ∀ (k : Nat) (s t : State), s.opState = .fault → Move.reset ∉ s.schedule → Host.Core.run core k s = .next t →
    t.opState = .fault ∧ t.fcause = s.fcause ∧ t.cmd = s.cmd ∧ t.ilen = s.ilen ∧ t.ibuf = s.ibuf ∧ t.err = s.err ∧
    t.olen = s.olen

/-- The command in flight sees its operands as they stood when it was accepted: as long as it is in flight, and no reset
comes, no step changes CMD, ILEN or IBUF (20_memory.md R59, R61 (a), (b); 70_reset_and_hazards.md R194). -/
def Obligations.OperandsHeldWhileBusy : Prop :=
  ∀ s t : State, s.opState = .busy → nextMove s ≠ .reset → step s = .next t →
    t.cmd = s.cmd ∧ t.ilen = s.ilen ∧ t.ibuf = s.ibuf ∧ t.epoch = s.epoch ∧
    (nextMove s ≠ .engine → t.opState = .busy)

/-! ### Tables and arithmetic -/

/-- The default tables meet every constraint the source sets (40_datapath.md R91 to R93) and are the two strings of R94 in
ASCII (R90); the entries beyond R92 and R93 are the spec's supply from general knowledge (assumptions 1 and 16). -/
def Obligations.DefaultTablesAreLegal : Prop :=
  LegalTables romTables ∧
  romTables.alpha43 = "0123456789ABCDEFGHIJKLMNOPQRSTUVWXYZ%*+-./:".toList.map (fun c => BitVec.ofNat 8 c.toNat) ∧
  romTables.alpha44 = "0123456789ABCDEFGHIJKLMNOPQRSTUVWXYZ$%*+-./:".toList.map (fun c => BitVec.ofNat 8 c.toNat)

/-- Digit values and characters are in bijection, for every legal table (40_datapath.md R91, R95, R96). -/
def Obligations.AlphabetLookupBijection : Prop :=
  ∀ (T : Config.Tables) (a : Alphabet), LegalTables T →
    (∀ d, d < radix a → val T a (chr T a d) = some d) ∧
    (∀ c d, val T a c = some d → d < radix a ∧ chr T a d = c) ∧
    (∀ c, val T a c = none ↔ c ∉ romOf T a)

/-- The digit-count ROM holds, for both radices and every bit count, the least positive D with `N^D > 2^bits - 1`, which is
also the least with `N^D > 2^bits` (40_datapath.md R100, R101). -/
def Obligations.DigitCountIsLeast : Prop :=
  ∀ (a : Alphabet) (bits : Nat), 1 ≤ bits → bits ≤ 128 →
    1 ≤ digitCount a bits ∧ 2 ^ bits < radix a ^ digitCount a bits ∧
    ∀ D, D < digitCount a bits → radix a ^ D ≤ 2 ^ bits - 1

/-- The multiply-add is exact, its overflow verdict is the test that never forms a wide product (40_datapath.md R99). -/
def Obligations.MultiplyAddIsExact : Prop :=
  ∀ (a : Alphabet) (v d : Nat), v < 2 ^ 128 → d < radix a →
    (v * radix a + d ≤ 2 ^ 128 - 1 → mac a v d = some (v * radix a + d)) ∧
    (mac a v d = none ↔ 2 ^ 128 ≤ v * radix a + d) ∧
    (mac a v d = none ↔ (2 ^ 128 - 1 - d) / radix a < v)

/-- The extraction pipeline of a pair and of a single byte stays in its ranges, so that every lookup is of a digit
(40_datapath.md R98). -/
def Obligations.ExtractionStaysInRange : Prop :=
  ∀ (a : Alphabet) (x : Nat),
    (x ≤ 65535 →
      (divmod a x).1 ≤ (match a with | .alpha43 => 1524 | .alpha44 => 1489) ∧
      (divmod a (divmod a x).1).1 ≤ (match a with | .alpha43 => 35 | .alpha44 => 33) ∧
      (divmod a x).2 < radix a ∧ (divmod a (divmod a x).1).2 < radix a) ∧
    (x ≤ 255 → (divmod a x).1 ≤ 5 ∧ (divmod a x).2 < radix a)

/-- Packing is the sum of the bytes at their places, below `2^(8k)` for `k` bytes and below `2^128` for at most 16
(40_datapath.md R102); unpacking takes the bytes of the value (R103). That nothing of a value that fits is lost is an
inference R103 marks as derived; that unpacking a packed sequence gives it back follows from both and is said by
neither. -/
def Obligations.PackingIsLittleEndian : Prop :=
  (∀ b : List Byte, packLE b = ∑ i ∈ Finset.range b.length, (b.getD i 0).toNat * 2 ^ (8 * i)) ∧
  (∀ b : List Byte, packLE b < 2 ^ (8 * b.length)) ∧
  (∀ b : List Byte, b.length ≤ 16 → packLE b < 2 ^ 128) ∧ packLE [] = 0 ∧
  (∀ v k : Nat, (unpackLE v k).length = k ∧
    ∀ i, i < k → (unpackLE v k)[i]?.map BitVec.toNat = some (v / 2 ^ (8 * i) % 256)) ∧
  (∀ b : List Byte, unpackLE (packLE b) b.length = b) ∧
  (∀ v k : Nat, v < 2 ^ (8 * k) → packLE (unpackLE v k) = v)

/-! ### Round trips -/

/-- DEC gives back every byte sequence that ENC encoded, for every legal table (41_bytepair.md R115). -/
def Obligations.BytePairRoundTrip : Prop :=
  ∀ (T : Config.Tables) (a : Alphabet) (b : List Byte), LegalTables T →
    decResult T a (encodeBytes T a b) = .ok b

/-- ENC gives back every string that DEC accepts, for every legal table (41_bytepair.md R115, an inference the spec marks
as derived). -/
def Obligations.BytePairDecodeIsInjective : Prop :=
  ∀ (T : Config.Tables) (a : Alphabet) (str b : List Byte), LegalTables T → decResult T a str = .ok b →
    encResult T a b = .ok str

/-- DECB on the output of ENCB gives the bytes back, cut or filled with zero bytes to ceil(bits / 8), for every legal table
(42_fixedwidth.md R135). -/
def Obligations.FixedWidthRoundTrip : Prop :=
  ∀ (T : Config.Tables) (a : Alphabet) (bits : Nat) (b : List Byte), LegalTables T → 1 ≤ bits → bits ≤ 128 →
    b.length ≤ 16 → packLE b < 2 ^ bits →
    ∃ str, encbResult T a bits b = .ok str ∧
      decbResult T a bits str = .ok ((b ++ List.replicate 16 0#8).take ((bits + 7) / 8))

/-- ENCB gives back every string of DIGITS(N, bits) characters that DECB accepts, for every legal table
(42_fixedwidth.md R135). -/
def Obligations.FixedWidthDecodeThenEncode : Prop :=
  ∀ (T : Config.Tables) (a : Alphabet) (bits : Nat) (str b : List Byte), LegalTables T →
    decbResult T a bits str = .ok b → str.length = digitCount a bits → encbResult T a bits b = .ok str

/-- The 103-bit pair is a bijection between the 13-byte sequences below `2^103` and the 19-character strings it accepts,
for every legal table (43_fixed103.md R154, an inference the spec marks as derived). -/
def Obligations.Fixed103Bijection : Prop :=
  ∀ (T : Config.Tables) (a : Alphabet) (b str : List Byte), LegalTables T →
    (b.length = 13 → packLE b < 2 ^ 103 →
      ∃ out, enc103Result T a b = .ok out ∧ out.length = 19 ∧ dec103Result T a out = .ok b) ∧
    (dec103Result T a str = .ok b → b.length = 13 ∧ packLE b < 2 ^ 103 ∧ enc103Result T a b = .ok str)

/-- The round trip through the machine: ENC in one state, its result carried into IBUF and ILEN of any other state, DEC
there, and OBUF holds the first state's input (41_bytepair.md R115; 20_memory.md R61). The string must fit IBUF. That OLEN
counts it is assumption 5. -/
def Obligations.MachineBytePairRoundTrip : Prop :=
  ∀ (a : Alphabet) (s t u : State), s.ilen.toNat ≤ Config.ibufCap →
    (3 * s.ilen.toNat + 1) / 2 ≤ Config.ibufCap →
    exec (.enc a) s = .next t → u.ilen = t.olen →
    (∀ k, k < t.olen.toNat → t.obuf.find k = some (ibufByte u k)) →
    ∃ v, exec (.dec a) u = .next v ∧ v.opState = .done ∧ v.err = .ok ∧ v.olen = s.ilen ∧
      ∀ k, k < s.ilen.toNat → v.obuf.find k = some (ibufByte s k)
end

