-- ==== Sys2Proof/Laws/Datapath.lean ====
section
/-! SUPPORT. The arithmetic primitives and the two accumulations: what each one computes, said once. -/

namespace Sys2Proof.Machine

/-! ### Radix and tables -/

theorem radix_cases (a : Alphabet) : radix a = 43 ∨ radix a = 44 := by cases a <;> simp [radix]

theorem radix_pos (a : Alphabet) : 0 < radix a := by cases a <;> simp [radix]

/-- The selected ROM of legal tables is legal by itself. -/
theorem legalRom_of_tables (T : Config.Tables) (hT : LegalTables T) (a : Alphabet) :
    LegalRom (radix a) (romOf T a) := by
  cases a
  · exact hT.rom43
  · exact hT.rom44

theorem romTables_length (a : Alphabet) : (romOf romTables a).length = radix a := by cases a <;> decide

theorem romTables_nodup (a : Alphabet) : (romOf romTables a).Nodup := by cases a <;> decide

/-- The search from index `i`: it finds the first place of the character, counted from `i`. -/
theorem indexFrom_some (c : Byte) (i n : Nat) (xs : List Byte) (h : indexFrom c i xs = some n) :
    i ≤ n ∧ xs[n - i]? = some c := by
  induction xs generalizing i with
  | nil => cases h
  | cons x xs ih =>
    simp only [indexFrom] at h
    split at h
    · rename_i hx
      cases h; simp [hx]
    · obtain ⟨h1, h2⟩ := ih (i + 1) h
      refine ⟨by omega, ?_⟩
      obtain ⟨k, rfl⟩ : ∃ k, n = i + 1 + k := ⟨n - (i + 1), by omega⟩
      have e1 : i + 1 + k - i = k + 1 := by omega
      have e2 : i + 1 + k - (i + 1) = k := by omega
      rw [e1, List.getElem?_cons_succ]; rwa [e2] at h2

/-- The search fails exactly on a character that is no entry. -/
theorem indexFrom_none (c : Byte) (i : Nat) (xs : List Byte) : indexFrom c i xs = none ↔ c ∉ xs := by
  induction xs generalizing i with
  | nil => simp [indexFrom]
  | cons x xs ih =>
    simp only [indexFrom, List.mem_cons, not_or]
    split
    · rename_i hx; simp [hx]
    · rename_i hx; rw [ih]; simp [Ne.symm hx]

/-- Reverse lookup fails exactly outside the alphabet (40_datapath.md R96). -/
theorem val_none_iff (T : Config.Tables) (a : Alphabet) (c : Byte) : val T a c = none ↔ c ∉ romOf T a :=
  indexFrom_none c 0 _

/-- Reverse lookup in a ROM without repeats: `d` exactly when entry `d` is the character (40_datapath.md R96). -/
theorem val_some_iff (T : Config.Tables) (a : Alphabet) (hn : (romOf T a).Nodup) (c : Byte) (d : Nat) :
    val T a c = some d ↔ (romOf T a)[d]? = some c := by
  constructor
  · intro h; simpa using (indexFrom_some c 0 d _ h).2
  · intro h
    cases hv : val T a c with
    | none => exact absurd (List.mem_of_getElem? h) ((val_none_iff T a c).1 hv)
    | some e =>
      have he : (romOf T a)[e]? = some c := by simpa using (indexFrom_some c 0 e _ hv).2
      obtain ⟨hd', hd⟩ := List.getElem?_eq_some_iff.1 h
      obtain ⟨he', he⟩ := List.getElem?_eq_some_iff.1 he
      exact congrArg some ((List.Nodup.getElem_inj_iff hn).1 (he.trans hd.symm))

/-- Forward lookup of a digit the ROM has an entry for. -/
theorem chr_of_lt (T : Config.Tables) (a : Alphabet) (d : Nat) (h : d < (romOf T a).length) :
    (romOf T a)[d]? = some (chr T a d) := by simp [chr, h]

/-- A found digit lies in the ROM. -/
theorem lt_of_val (T : Config.Tables) (a : Alphabet) (c : Byte) (d : Nat) (h : val T a c = some d) :
    d < (romOf T a).length := by
  have := (indexFrom_some c 0 d _ h).2
  simpa using (List.getElem?_eq_some_iff.1 this).1

/-- With the default tables a found digit is below the radix. -/
theorem romVal_lt (a : Alphabet) (c : Byte) (d : Nat) (h : val romTables a c = some d) : d < radix a := by
  rw [← romTables_length]; exact lt_of_val _ _ _ _ h

/-! ### Numbers written by digits -/

theorem valueMsb_append (N : Nat) (xs : List Nat) (d : Nat) : valueMsb N (xs ++ [d]) = valueMsb N xs * N + d := by
  simp [valueMsb]

@[simp] theorem valueMsb_nil (N : Nat) : valueMsb N [] = 0 := rfl

@[simp] theorem prefixValue_zero (N : Nat) (d : Nat → Nat) : prefixValue N d 0 = 0 := rfl

theorem prefixValue_succ (N : Nat) (d : Nat → Nat) (j : Nat) :
    prefixValue N d (j + 1) = prefixValue N d j * N + d j := by
  simp [prefixValue, List.range_succ, valueMsb_append]

/-- The partial values of a number never fall. -/
theorem prefixValue_mono (N : Nat) (hN : 0 < N) (d : Nat → Nat) (i j : Nat) (h : i ≤ j) :
    prefixValue N d i ≤ prefixValue N d j := by
  induction j, h using Nat.le_induction with
  | base => exact le_rfl
  | succ j _ ih =>
    rw [prefixValue_succ]
    exact le_trans ih (le_trans (Nat.le_mul_of_pos_right _ hN) (Nat.le_add_right _ _))

/-- `k` digits below `N` make a number below `N^k`. -/
theorem valueMsb_lt (N : Nat) (ds : List Nat) (h : ∀ d ∈ ds, d < N) : valueMsb N ds < N ^ ds.length := by
  induction ds using List.reverseRecOn with
  | nil => simp
  | append_singleton xs d ih =>
    have hx := ih fun e he => h e (by simp [he])
    have hd := h d (by simp)
    rw [valueMsb_append, List.length_append, List.length_singleton, pow_succ]
    nlinarith

@[simp] theorem extractDigits_length (a : Alphabet) (k v : Nat) : (extractDigits a k v).length = k := by
  induction k generalizing v with
  | zero => rfl
  | succ k ih => simp [extractDigits, ih]

theorem extractDigits_lt (a : Alphabet) (k v : Nat) : ∀ d ∈ extractDigits a k v, d < radix a := by
  induction k generalizing v with
  | zero => simp [extractDigits]
  | succ k ih =>
    simp only [extractDigits, divmod, List.mem_cons, forall_eq_or_imp]
    exact ⟨Nat.mod_lt _ (radix_pos a), ih _⟩

/-- Extraction loses nothing of a number that `k` digits can hold, and reads most significant first when reversed. -/
theorem extractDigits_value (a : Alphabet) (k v : Nat) (h : v < radix a ^ k) :
    valueMsb (radix a) (extractDigits a k v).reverse = v := by
  induction k generalizing v with
  | zero => simp at h; simp [extractDigits, h]
  | succ k ih =>
    simp only [extractDigits, divmod, List.reverse_cons, valueMsb_append]
    rw [ih _ (Nat.div_lt_of_lt_mul (by rwa [pow_succ, mul_comm] at h))]
    exact Nat.div_add_mod' v (radix a)

/-- Extraction gives back the digits of the number they write. -/
theorem extractDigits_valueMsb (a : Alphabet) (ds : List Nat) (h : ∀ d ∈ ds, d < radix a) :
    extractDigits a ds.length (valueMsb (radix a) ds) = ds.reverse := by
  induction ds using List.reverseRecOn with
  | nil => rfl
  | append_singleton xs d ih =>
    have hd : d < radix a := h d (by simp)
    have hx := ih fun e he => h e (by simp [he])
    rw [valueMsb_append, List.length_append, List.length_singleton, List.reverse_append]
    simp only [extractDigits, divmod, List.reverse_cons, List.reverse_nil, List.nil_append, List.singleton_append]
    rw [Nat.mul_comm, Nat.mul_add_mod, Nat.mod_eq_of_lt hd, Nat.mul_add_div (radix_pos a), Nat.div_eq_of_lt hd,
      Nat.add_zero, hx]

/-! ### Digit count -/

/-- The table's count is enough digits for every value of `bits` bits (40_datapath.md R101). -/
theorem digitCount_enough (a : Alphabet) (bits : Nat) (h : bits ≤ 128) : 2 ^ bits ≤ radix a ^ digitCount a bits := by
  have key : ∀ b ∈ List.range 129, 2 ^ b ≤ radix a ^ digitCount a b := by cases a <;> decide +kernel
  exact key bits (List.mem_range.2 (by omega))

theorem digitCount_le (a : Alphabet) (bits : Nat) (h : bits ≤ 128) : digitCount a bits ≤ 24 := by
  have key : ∀ b ∈ List.range 129, digitCount a b ≤ 24 := by cases a <;> decide +kernel
  exact key bits (List.mem_range.2 (by omega))

theorem digitCount_103 (a : Alphabet) : digitCount a 103 = 19 := by cases a <;> decide +kernel

/-! ### Packing -/

theorem packLE_lt (bs : List Byte) : packLE bs < 2 ^ (8 * bs.length) := by
  induction bs with
  | nil => simp [packLE]
  | cons b bs ih =>
    have hb := b.isLt
    rw [packLE, List.length_cons, Nat.mul_add, Nat.pow_add]
    omega

@[simp] theorem unpackLE_length (v k : Nat) : (unpackLE v k).length = k := by simp [unpackLE]

theorem unpackLE_getElem? (v k i : Nat) (h : i < k) :
    (unpackLE v k)[i]? = some (BitVec.ofNat 8 (v / 2 ^ (8 * i))) := by
  simp [unpackLE, h]
  apply BitVec.eq_of_toNat_eq
  simp

/-- Unpacking one byte more: the low byte first, then the rest of the number. -/
theorem unpackLE_succ (v k : Nat) : unpackLE v (k + 1) = BitVec.ofNat 8 v :: unpackLE (v / 256) k := by
  apply List.ext_getElem?
  intro i
  cases i with
  | zero => rw [unpackLE_getElem? _ _ _ (by omega)]; simp
  | succ i =>
    by_cases h : i < k
    · rw [unpackLE_getElem? _ _ _ (by omega), List.getElem?_cons_succ, unpackLE_getElem? _ _ _ h, Nat.div_div_eq_div_mul,
        show 2 ^ (8 * (i + 1)) = 256 * 2 ^ (8 * i) by rw [Nat.mul_add, Nat.pow_add]; ring]
    · rw [List.getElem?_eq_none (by simp; omega), List.getElem?_eq_none (by simp; omega)]

/-! ### The multiply-add and the accumulation -/

theorem mac_some_iff (a : Alphabet) (v d w : Nat) : mac a v d = some w ↔ v * radix a + d < 2 ^ 128 ∧ w = v * radix a + d := by
  unfold mac
  split
  · rename_i h; exact ⟨fun e => ⟨h, (Option.some.inj e).symm⟩, fun e => e.2 ▸ rfl⟩
  · rename_i h; exact ⟨fun e => (by cases e), fun e => absurd e.1 h⟩

theorem mac_none_iff (a : Alphabet) (v d : Nat) : mac a v d = none ↔ 2 ^ 128 ≤ v * radix a + d := by
  unfold mac
  split
  · rename_i h; exact ⟨fun e => (by cases e), fun e => absurd h (by omega)⟩
  · rename_i h; exact ⟨fun _ => (by omega), fun _ => rfl⟩

/-- Everything the accumulation can do, by its first character. -/
theorem accumulate_cons (T : Config.Tables) (a : Alphabet) (v : Nat) (c : Byte) (cs : List Byte) :
    accumulate T a v (c :: cs) =
      match val T a c with
      | none => .error .invalidChar
      | some d => if v * radix a + d < 2 ^ 128 then accumulate T a (v * radix a + d) cs else .error .overflow := by
  rw [accumulate]
  cases val T a c with
  | none => rfl
  | some d =>
    by_cases h : v * radix a + d < 2 ^ 128
    · simp only [mac, if_pos h]
    · simp only [mac, if_neg h]

/-- The accumulation over valid characters whose partial values fit runs on as if it had started after them. -/
theorem accumulate_append (T : Config.Tables) (a : Alphabet) (xs ys : List Byte) (v w : Nat)
    (h : accumulate T a v xs = .ok w) : accumulate T a v (xs ++ ys) = accumulate T a w ys := by
  induction xs generalizing v with
  | nil => cases h; rfl
  | cons c cs ih =>
    rw [accumulate_cons] at h
    rw [List.cons_append, accumulate_cons]
    cases hd : val T a c with
    | none => rw [hd] at h; cases h
    | some d =>
      rw [hd] at h
      simp only at h ⊢
      split at h
      · rename_i hlt; rw [if_pos hlt]; exact ih _ h
      · cases h

/-- The accumulation over the first `j` characters, all valid, with every partial value below `2^128`. -/
theorem accumulate_prefix (T : Config.Tables) (a : Alphabet) (c : Nat → Byte) (d : Nat → Nat) (j : Nat)
    (hv : ∀ k, k < j → val T a (c k) = some (d k)) (hlt : ∀ k, k < j → prefixValue (radix a) d (k + 1) < 2 ^ 128) :
    accumulate T a 0 ((List.range j).map c) = .ok (prefixValue (radix a) d j) := by
  induction j with
  | zero => rfl
  | succ j ih =>
    rw [List.range_succ, List.map_append, accumulate_append _ _ _ _ _ _
      (ih (fun k hk => hv k (by omega)) fun k hk => hlt k (by omega))]
    have h1 := hlt j (by omega)
    rw [prefixValue_succ] at h1
    simp only [List.map_cons, List.map_nil, accumulate_cons, hv j (by omega), if_pos h1, accumulate, prefixValue_succ]

/-- An accumulation that ends well read valid characters only and gives the number they write. -/
theorem accumulate_ok (T : Config.Tables) (a : Alphabet) (cs : List Byte) (w : Nat) (h : accumulate T a 0 cs = .ok w) :
    ∃ ds : List Nat, cs.map (val T a) = ds.map some ∧ w = valueMsb (radix a) ds := by
  induction cs using List.reverseRecOn generalizing w with
  | nil => cases h; exact ⟨[], rfl, rfl⟩
  | append_singleton xs c ih =>
    cases hx : accumulate T a 0 xs with
    | error k =>
      have : ∀ v, accumulate T a v xs = .error k → accumulate T a v (xs ++ [c]) = .error k := by
        clear h ih hx
        intro v hv
        induction xs generalizing v with
        | nil => cases hv
        | cons y ys ihy =>
          rw [accumulate_cons] at hv
          rw [List.cons_append, accumulate_cons]
          cases hd : val T a y with
          | none => rw [hd] at hv; exact hv
          | some d =>
            rw [hd] at hv
            simp only at hv ⊢
            split at hv
            · rename_i hlt; rw [if_pos hlt]; exact ihy _ hv
            · rename_i hlt; rw [if_neg hlt]; exact hv
      rw [this 0 hx] at h; cases h
    | ok v =>
      obtain ⟨ds, h1, h2⟩ := ih v hx
      rw [accumulate_append _ _ _ _ _ _ hx, accumulate_cons] at h
      cases hd : val T a c with
      | none => rw [hd] at h; cases h
      | some d =>
        rw [hd] at h
        simp only at h
        split at h
        · cases h
          exact ⟨ds ++ [d], by simp [h1, hd], by rw [valueMsb_append, h2]⟩
        · cases h

/-! ### The byte-pair groups -/

/-- How many groups a string falls into; its recursion is that of the decoder, for inductions over the groups. -/
def groupsOfThree : List Byte → Nat
  | [] => 0
  | [_] => 1
  | [_, _] => 1
  | _ :: _ :: _ :: rest => groupsOfThree rest + 1

/-- The string of a pair of bytes and what follows. -/
theorem encodeBytes_pair (T : Config.Tables) (a : Alphabet) (hi lo : Byte) (rest : List Byte) :
    encodeBytes T a (hi :: lo :: rest) = encodePair T a hi lo ++ encodeBytes T a rest := rfl

/-- The length of an ENC string (41_bytepair.md R112), in the form an induction needs. -/
theorem encodeBytes_length (T : Config.Tables) (a : Alphabet) (bs : List Byte) :
    (encodeBytes T a bs).length = (3 * bs.length + 1) / 2 := by
  induction bs using encodeBytes.induct with
  | case1 => rfl
  | case2 b => simp [encodeBytes, encodeSingle]
  | case3 hi lo rest ih =>
    rw [encodeBytes_pair, List.length_append, ih]
    simp [encodePair]; omega

/-- A triple that decodes gives two bytes. -/
theorem decodeTriple_ok_length (T : Config.Tables) (a : Alphabet) (c0 c1 c2 : Byte) (out : List Byte)
    (h : decodeTriple T a c0 c1 c2 = .ok out) : out.length = 2 := by
  unfold decodeTriple at h
  split at h
  · dsimp only at h; split at h
    · cases h
    · cases h; rfl
  · cases h

/-- A string that decodes is no longer than it was (41_bytepair.md R114, the bound only). -/
theorem decodeGroups_ok_length_le (T : Config.Tables) (a : Alphabet) (cs out : List Byte)
    (h : decodeGroups T a cs = .ok out) : out.length ≤ cs.length := by
  induction cs using groupsOfThree.induct generalizing out with
  | case1 => cases h; simp
  | case2 c =>
    rw [decodeGroups, decodeLeftover] at h
    cases hv : val T a c <;> rw [hv] at h <;> cases h
  | case3 c0 c1 =>
    rw [decodeGroups, decodeLastPair] at h
    split at h
    · dsimp only at h; split at h
      · cases h
      · cases h; simp
    · cases h
  | case4 c0 c1 c2 rest ih =>
    rw [decodeGroups] at h
    cases ht : decodeTriple T a c0 c1 c2 with
    | error k => rw [ht] at h; cases h
    | ok bytes =>
      cases hr : decodeGroups T a rest with
      | error k => rw [ht, hr] at h; cases h
      | ok more =>
        rw [ht, hr] at h; cases h
        have := ih more hr
        have := decodeTriple_ok_length T a c0 c1 c2 bytes ht
        simp only [List.length_append, List.length_cons]; omega

end Sys2Proof.Machine
end

