-- ==== Sys2Proof/Laws/Encoding.lean ====
section
/-! SUPPORT. The fields of the command word as numbers and as slices, and what the decoder can answer. -/

namespace Sys2Proof

theorem rsvField_eq (w : Word) : rsvField w = (w.extractLsb' 12 20).toNat := by
  simp [rsvField, bitField, BitVec.extractLsb'_toNat, Nat.shiftRight_eq_div_pow]

theorem opField_eq (w : Word) : opField w = (w.extractLsb' 9 3).toNat := by
  simp [opField, bitField, BitVec.extractLsb'_toNat, Nat.shiftRight_eq_div_pow]

theorem bitsField_eq (w : Word) : bitsField w = (w.extractLsb' 0 8).toNat := by
  simp [bitsField, bitField, BitVec.extractLsb'_toNat, Nat.shiftRight_eq_div_pow]

theorem alphaField_eq (w : Word) : alphaField w = alphabetOfBit (w.getLsbD 8) := by
  have h : w.getLsbD 8 = decide (w.toNat / 256 % 2 = 1) := by
    rw [BitVec.getLsbD, Nat.testBit_eq_decide_div_mod_eq]
  simp only [alphaField, bitField, alphabetOfBit, h]
  rcases Nat.mod_two_eq_zero_or_one (w.toNat / 256) with h' | h' <;> simp [h']

/-- A word is its four fields (30_encoding.md R70). -/
theorem word_of_fields (w : Word) :
    w.toNat = rsvField w * 4096 + opField w * 512 + (alphaField w).bit * 256 + bitsField w := by
  have hw := w.isLt
  have ha : (alphaField w).bit = w.toNat / 256 % 2 := by
    unfold alphaField bitField
    split <;> simp only [Alphabet.bit] <;> omega
  rw [ha]
  simp only [rsvField, opField, bitsField, bitField]
  omega

theorem opField_lt (w : Word) : opField w < 8 := Nat.mod_lt _ (by decide)

theorem bitsField_lt (w : Word) : bitsField w < 256 := Nat.mod_lt _ (by decide)

/-- The number of an encoded command: no field runs into the next (30_encoding.md R70). -/
theorem encode_toNat (i : Instr) (h : i.wellFormed = true) :
    (encode i).toNat = i.op * 512 + i.alphabet.bit * 256 + i.bitsValue := by
  have ha : ∀ a : Alphabet, a.bit ≤ 1 := by intro a; cases a <;> simp [Alphabet.bit]
  have h1 := ha i.alphabet
  have ho : i.op < 8 := by cases i <;> simp [Instr.op]
  have hb : i.bitsValue < 256 := by cases i <;> simp_all [Instr.wellFormed, Instr.bitsValue]
  rw [encode, BitVec.toNat_ofNat, Nat.mod_eq_of_lt (by omega)]

/-- The decoder on a word whose RSV is zero, by its OP. -/
theorem decode_of_rsv_zero (w : Word) (h : rsvField w = 0) :
    decode w =
      match opField w with
      | 1 => withoutBits w (.enc (alphaField w))
      | 2 => withoutBits w (.dec (alphaField w))
      | 3 => .ok (.encb (alphaField w) (bitsField w))
      | 4 => .ok (.decb (alphaField w) (bitsField w))
      | 5 => withoutBits w (.enc103 (alphaField w))
      | 6 => withoutBits w (.dec103 (alphaField w))
      | _ => .error .opReserved := by
  exact if_neg (by simp [h])

/-- A command without a bit count decodes exactly when BITS is zero. -/
theorem withoutBits_ok (w : Word) (i j : Instr) : withoutBits w i = .ok j ↔ bitsField w = 0 ∧ i = j := by
  unfold withoutBits
  split <;> simp_all

/-- Every way a word can decode: its RSV is zero, its OP names the command, its fields are the operands. -/
theorem decode_ok_cases (w : Word) (i : Instr) (h : decode w = .ok i) :
    rsvField w = 0 ∧
    ((opField w = 1 ∧ bitsField w = 0 ∧ i = .enc (alphaField w)) ∨
     (opField w = 2 ∧ bitsField w = 0 ∧ i = .dec (alphaField w)) ∨
     (opField w = 3 ∧ i = .encb (alphaField w) (bitsField w)) ∨
     (opField w = 4 ∧ i = .decb (alphaField w) (bitsField w)) ∨
     (opField w = 5 ∧ bitsField w = 0 ∧ i = .enc103 (alphaField w)) ∨
     (opField w = 6 ∧ bitsField w = 0 ∧ i = .dec103 (alphaField w))) := by
  by_cases hr : rsvField w = 0
  · refine ⟨hr, ?_⟩
    rw [decode_of_rsv_zero w hr] at h
    split at h <;> rename_i ho <;> simp only [withoutBits_ok, Except.ok.injEq, reduceCtorEq] at h <;>
      simp [ho, ← h]
  · simp [decode, hr] at h

end Sys2Proof
end

