-- ==== Sys2Proof/Laws/Memory.lean ====
section
/-! SUPPORT. Buffers: what a write and a whole result do to what is read, and that the one form is kept. -/

namespace Sys2Proof.Machine

@[simp] theorem memory_find_nil (i : Nat) : Memory.find [] i = none := rfl

@[simp] theorem memory_wf_nil : Memory.wf [] = true := rfl

@[simp] theorem memory_holding_nil (i : Nat) : Memory.holding i [] = [] := rfl

/-- A list in the one form: the head's index is below every later index, and the rest is in the form. -/
theorem memory_wf_cons (c : Host.Cell) (m : Memory) :
    Memory.wf (c :: m) = true ↔ (∀ d ∈ m, c.1 < d.1) ∧ Memory.wf m = true := by
  induction m generalizing c with
  | nil => simp [Memory.wf]
  | cons d m ih =>
    simp only [Memory.wf, Bool.and_eq_true, decide_eq_true_eq, List.mem_cons, forall_eq_or_imp]
    constructor
    · rintro ⟨hcd, hd⟩
      exact ⟨⟨hcd, fun e he => lt_trans hcd (((ih d).1 hd).1 e he)⟩, hd⟩
    · rintro ⟨⟨hcd, -⟩, hd⟩
      exact ⟨hcd, hd⟩

/-- An index below every listed one is not listed. -/
theorem memory_find_none_of_lt (m : Memory) (i : Nat) (h : ∀ d ∈ m, i < d.1) : Memory.find m i = none := by
  induction m with
  | nil => rfl
  | cons c m ih =>
    have hc : ¬ c.1 = i := by have := h c (by simp); omega
    rw [Memory.find, if_neg hc]
    exact ih fun d hd => h d (by simp [hd])

/-- Reading after a write: the written index gives the written byte, every other index what it gave before. -/
theorem memory_find_write (m : Memory) (i j : Nat) (b : Byte) :
    (m.write i b).find j = if j = i then some b else m.find j := by
  induction m with
  | nil => simp [Memory.write, Memory.find, eq_comm]
  | cons c m ih =>
    obtain ⟨k, x⟩ := c
    simp only [Memory.write]
    split
    · by_cases h : j = i
      · simp [Memory.find, h]
      · simp [Memory.find, h, Ne.symm h]
    · split
      · rename_i h1 h2
        subst h2
        by_cases h : j = i
        · simp [Memory.find, h]
        · simp [Memory.find, h, Ne.symm h]
      · rename_i h1 h2
        simp only [Memory.find]
        split
        · rename_i h3
          have : ¬ j = i := by omega
          simp [this]
        · exact ih

/-- What a write lists: the written cell and cells that were listed before. -/
theorem memory_mem_write (m : Memory) (i : Nat) (b : Byte) (c : Host.Cell) (h : c ∈ m.write i b) :
    c = (i, b) ∨ c ∈ m := by
  induction m with
  | nil => simpa [Memory.write] using h
  | cons d m ih =>
    obtain ⟨k, x⟩ := d
    simp only [Memory.write] at h
    split at h
    · simpa using h
    · split at h
      · rcases List.mem_cons.1 h with h | h
        · exact .inl h
        · exact .inr (by simp [h])
      · rcases List.mem_cons.1 h with h | h
        · exact .inr (by simp [h])
        · rcases ih h with h | h
          · exact .inl h
          · exact .inr (by simp [h])

/-- A write keeps the one form. -/
theorem memory_wf_write (m : Memory) (hm : Memory.wf m = true) (i : Nat) (b : Byte) :
    Memory.wf (m.write i b) = true := by
  induction m with
  | nil => rfl
  | cons c m ih =>
    obtain ⟨k, x⟩ := c
    obtain ⟨hlt, hwf⟩ := (memory_wf_cons _ _).1 hm
    simp only [Memory.write]
    split
    · rename_i h
      refine (memory_wf_cons _ _).2 ⟨fun d hd => ?_, hm⟩
      rcases List.mem_cons.1 hd with rfl | hd
      · exact h
      · exact lt_trans h (hlt d hd)
    · split
      · rename_i h1 h2
        subst h2
        exact (memory_wf_cons _ _).2 ⟨hlt, hwf⟩
      · rename_i h1 h2
        refine (memory_wf_cons _ _).2 ⟨fun d hd => ?_, ih hwf⟩
        rcases memory_mem_write m i b d hd with rfl | hd
        · show k < i; omega
        · exact hlt d hd

/-- The indices of a whole result are `i`, `i + 1`, …. -/
theorem memory_mem_holding (out : List Byte) (i : Nat) (c : Host.Cell) (h : c ∈ Memory.holding i out) :
    i ≤ c.1 ∧ c.1 < i + out.length := by
  induction out generalizing i with
  | nil => simp at h
  | cons b bs ih =>
    rcases List.mem_cons.1 h with rfl | h
    · simp
    · have := ih (i + 1) h
      simp only [List.length_cons]; omega

/-- A whole result is written down in the one form. -/
theorem memory_wf_holding (out : List Byte) (i : Nat) : Memory.wf (Memory.holding i out) = true := by
  induction out generalizing i with
  | nil => rfl
  | cons b bs ih =>
    refine (memory_wf_cons _ _).2 ⟨fun d hd => ?_, ih (i + 1)⟩
    exact (memory_mem_holding bs (i + 1) d hd).1

/-- Reading a whole result stored from index `i` on. -/
theorem memory_find_holding (out : List Byte) (i j : Nat) :
    (Memory.holding i out).find (i + j) = out[j]? := by
  induction out generalizing i j with
  | nil => simp
  | cons b bs ih =>
    cases j with
    | zero => simp [Memory.holding, Memory.find]
    | succ j =>
      have h : ¬ i = i + (j + 1) := by omega
      simp only [Memory.holding, Memory.find, if_neg h, List.getElem?_cons_succ]
      rw [← ih (i + 1) j]
      congr 1; omega

/-- Reading a whole result stored from index 0 on. -/
@[simp] theorem memory_find_holding_zero (out : List Byte) (j : Nat) :
    (Memory.holding 0 out).find j = out[j]? := by
  simpa using memory_find_holding out 0 j

/-- The sequence a buffer holds from an index is determined by its list. -/
theorem memory_holding_injective (i : Nat) (xs ys : List Byte) (h : Memory.holding i xs = Memory.holding i ys) :
    xs = ys := by
  induction xs generalizing i ys with
  | nil => cases ys with
    | nil => rfl
    | cons y ys => simp [Memory.holding] at h
  | cons x xs ih => cases ys with
    | nil => simp [Memory.holding] at h
    | cons y ys =>
      simp only [Memory.holding, List.cons.injEq, Prod.mk.injEq, true_and] at h
      rw [h.1, ih _ _ h.2]

/-- Equal buffers are equal data: two lists in the one form that read the same everywhere are the same list. -/
theorem memory_ext (m n : Memory) (hm : Memory.wf m = true) (hn : Memory.wf n = true)
    (h : ∀ i, m.find i = n.find i) : m = n := by
  induction m generalizing n with
  | nil =>
    cases n with
    | nil => rfl
    | cons d n => have := h d.1; simp [Memory.find] at this
  | cons c m ih =>
    obtain ⟨hc, hm'⟩ := (memory_wf_cons _ _).1 hm
    cases n with
    | nil => have := h c.1; simp [Memory.find] at this
    | cons d n =>
      obtain ⟨hd, hn'⟩ := (memory_wf_cons _ _).1 hn
      have hidx : c.1 = d.1 := by
        rcases lt_trichotomy c.1 d.1 with hlt | heq | hgt
        · have h1 := h c.1
          have h2 := memory_find_none_of_lt n c.1 fun e he => lt_trans hlt (hd e he)
          have : ¬ d.1 = c.1 := by omega
          rw [Memory.find, if_pos rfl, Memory.find, if_neg this, h2] at h1
          cases h1
        · exact heq
        · have h1 := h d.1
          have h2 := memory_find_none_of_lt m d.1 fun e he => lt_trans hgt (hc e he)
          have : ¬ c.1 = d.1 := by omega
          rw [Memory.find, if_neg this, Memory.find, if_pos rfl, h2] at h1
          cases h1
      have hbyte : c.2 = d.2 := by
        have h1 := h c.1
        rw [Memory.find, if_pos rfl, Memory.find, if_pos hidx.symm] at h1
        exact Option.some.inj h1
      have hrest : m = n := by
        refine ih n hm' hn' fun i => ?_
        by_cases hi : c.1 = i
        · subst hi
          rw [memory_find_none_of_lt m _ hc, memory_find_none_of_lt n _ (by rw [hidx]; exact hd)]
        · have h1 := h i
          rwa [Memory.find, if_neg hi, Memory.find, if_neg (hidx ▸ hi)] at h1
      rw [hrest, Prod.ext hidx hbyte]

end Sys2Proof.Machine
end

