-- ==== Sys2Proof/Laws/State.lean ====
section
/-! SUPPORT. One lemma per field of State per named update, true by rfl, so that no proof unfolds a record update. -/

namespace Sys2Proof.Machine

/-! ### finishOk -/

@[simp] theorem finishOk_cmd (out : List Byte) (s : State) : (finishOk out s).cmd = s.cmd := rfl
@[simp] theorem finishOk_opState (out : List Byte) (s : State) : (finishOk out s).opState = .done := rfl
@[simp] theorem finishOk_err (out : List Byte) (s : State) : (finishOk out s).err = .ok := rfl
@[simp] theorem finishOk_fcause (out : List Byte) (s : State) : (finishOk out s).fcause = s.fcause := rfl
@[simp] theorem finishOk_ilen (out : List Byte) (s : State) : (finishOk out s).ilen = s.ilen := rfl
@[simp] theorem finishOk_olen (out : List Byte) (s : State) : (finishOk out s).olen = BitVec.ofNat 32 out.length := rfl
@[simp] theorem finishOk_ibuf (out : List Byte) (s : State) : (finishOk out s).ibuf = s.ibuf := rfl
@[simp] theorem finishOk_obuf (out : List Byte) (s : State) : (finishOk out s).obuf = Memory.holding 0 out := rfl
@[simp] theorem finishOk_epoch (out : List Byte) (s : State) : (finishOk out s).epoch = s.epoch := rfl
@[simp] theorem finishOk_fresh (out : List Byte) (s : State) : (finishOk out s).fresh = s.fresh := rfl
@[simp] theorem finishOk_answer (out : List Byte) (s : State) : (finishOk out s).answer = s.answer := rfl
@[simp] theorem finishOk_schedule (out : List Byte) (s : State) : (finishOk out s).schedule = s.schedule := rfl

/-! ### finishErr -/

@[simp] theorem finishErr_cmd (k : ErrKind) (s : State) : (finishErr k s).cmd = s.cmd := rfl
@[simp] theorem finishErr_opState (k : ErrKind) (s : State) : (finishErr k s).opState = .done := rfl
@[simp] theorem finishErr_err (k : ErrKind) (s : State) : (finishErr k s).err = .err k := rfl
@[simp] theorem finishErr_fcause (k : ErrKind) (s : State) : (finishErr k s).fcause = s.fcause := rfl
@[simp] theorem finishErr_ilen (k : ErrKind) (s : State) : (finishErr k s).ilen = s.ilen := rfl
@[simp] theorem finishErr_olen (k : ErrKind) (s : State) : (finishErr k s).olen = 0#32 := rfl
@[simp] theorem finishErr_ibuf (k : ErrKind) (s : State) : (finishErr k s).ibuf = s.ibuf := rfl
@[simp] theorem finishErr_obuf (k : ErrKind) (s : State) : (finishErr k s).obuf = [] := rfl
@[simp] theorem finishErr_epoch (k : ErrKind) (s : State) : (finishErr k s).epoch = s.epoch := rfl
@[simp] theorem finishErr_fresh (k : ErrKind) (s : State) : (finishErr k s).fresh = s.fresh := rfl
@[simp] theorem finishErr_answer (k : ErrKind) (s : State) : (finishErr k s).answer = s.answer := rfl
@[simp] theorem finishErr_schedule (k : ErrKind) (s : State) : (finishErr k s).schedule = s.schedule := rfl

/-! ### takeFault -/

@[simp] theorem takeFault_cmd (c : Cause) (s : State) : (takeFault c s).cmd = s.cmd := rfl
@[simp] theorem takeFault_opState (c : Cause) (s : State) : (takeFault c s).opState = .fault := rfl
@[simp] theorem takeFault_err (c : Cause) (s : State) : (takeFault c s).err = s.err := rfl
@[simp] theorem takeFault_fcause (c : Cause) (s : State) : (takeFault c s).fcause = .cause c := rfl
@[simp] theorem takeFault_ilen (c : Cause) (s : State) : (takeFault c s).ilen = s.ilen := rfl
@[simp] theorem takeFault_olen (c : Cause) (s : State) : (takeFault c s).olen = s.olen := rfl
@[simp] theorem takeFault_ibuf (c : Cause) (s : State) : (takeFault c s).ibuf = s.ibuf := rfl
@[simp] theorem takeFault_obuf (c : Cause) (s : State) : (takeFault c s).obuf = [] := rfl
@[simp] theorem takeFault_epoch (c : Cause) (s : State) : (takeFault c s).epoch = s.epoch := rfl
@[simp] theorem takeFault_fresh (c : Cause) (s : State) : (takeFault c s).fresh = s.fresh := rfl
@[simp] theorem takeFault_answer (c : Cause) (s : State) : (takeFault c s).answer = s.answer := rfl
@[simp] theorem takeFault_schedule (c : Cause) (s : State) : (takeFault c s).schedule = s.schedule := rfl

/-! ### resetBlock -/

@[simp] theorem resetBlock_cmd (s : State) : (resetBlock s).cmd = 0#32 := rfl
@[simp] theorem resetBlock_opState (s : State) : (resetBlock s).opState = .idle := rfl
@[simp] theorem resetBlock_err (s : State) : (resetBlock s).err = .ok := rfl
@[simp] theorem resetBlock_fcause (s : State) : (resetBlock s).fcause = .none := rfl
@[simp] theorem resetBlock_ilen (s : State) : (resetBlock s).ilen = 0#32 := rfl
@[simp] theorem resetBlock_olen (s : State) : (resetBlock s).olen = 0#32 := rfl
@[simp] theorem resetBlock_ibuf (s : State) : (resetBlock s).ibuf = [] := rfl
@[simp] theorem resetBlock_obuf (s : State) : (resetBlock s).obuf = [] := rfl
@[simp] theorem resetBlock_epoch (s : State) : (resetBlock s).epoch = s.epoch + 1 := rfl
@[simp] theorem resetBlock_fresh (s : State) : (resetBlock s).fresh = s.fresh := rfl
@[simp] theorem resetBlock_answer (s : State) : (resetBlock s).answer = s.answer := rfl
@[simp] theorem resetBlock_schedule (s : State) : (resetBlock s).schedule = s.schedule := rfl

/-! ### acceptCmd -/

@[simp] theorem acceptCmd_cmd (w : Word) (s : State) : (acceptCmd w s).cmd = w := rfl
@[simp] theorem acceptCmd_opState (w : Word) (s : State) : (acceptCmd w s).opState = .busy := rfl
@[simp] theorem acceptCmd_err (w : Word) (s : State) : (acceptCmd w s).err = s.err := rfl
@[simp] theorem acceptCmd_fcause (w : Word) (s : State) : (acceptCmd w s).fcause = s.fcause := rfl
@[simp] theorem acceptCmd_ilen (w : Word) (s : State) : (acceptCmd w s).ilen = s.ilen := rfl
@[simp] theorem acceptCmd_olen (w : Word) (s : State) : (acceptCmd w s).olen = s.olen := rfl
@[simp] theorem acceptCmd_ibuf (w : Word) (s : State) : (acceptCmd w s).ibuf = s.ibuf := rfl
@[simp] theorem acceptCmd_obuf (w : Word) (s : State) : (acceptCmd w s).obuf = [] := rfl
@[simp] theorem acceptCmd_epoch (w : Word) (s : State) : (acceptCmd w s).epoch = s.epoch := rfl
@[simp] theorem acceptCmd_fresh (w : Word) (s : State) : (acceptCmd w s).fresh = s.fresh := rfl
@[simp] theorem acceptCmd_answer (w : Word) (s : State) : (acceptCmd w s).answer = s.answer := rfl
@[simp] theorem acceptCmd_schedule (w : Word) (s : State) : (acceptCmd w s).schedule = s.schedule := rfl

/-! ### setIlen -/

@[simp] theorem setIlen_cmd (v : Word) (s : State) : (setIlen v s).cmd = s.cmd := rfl
@[simp] theorem setIlen_opState (v : Word) (s : State) : (setIlen v s).opState = s.opState := rfl
@[simp] theorem setIlen_err (v : Word) (s : State) : (setIlen v s).err = s.err := rfl
@[simp] theorem setIlen_fcause (v : Word) (s : State) : (setIlen v s).fcause = s.fcause := rfl
@[simp] theorem setIlen_ilen (v : Word) (s : State) : (setIlen v s).ilen = v := rfl
@[simp] theorem setIlen_olen (v : Word) (s : State) : (setIlen v s).olen = s.olen := rfl
@[simp] theorem setIlen_ibuf (v : Word) (s : State) : (setIlen v s).ibuf = s.ibuf := rfl
@[simp] theorem setIlen_obuf (v : Word) (s : State) : (setIlen v s).obuf = s.obuf := rfl
@[simp] theorem setIlen_epoch (v : Word) (s : State) : (setIlen v s).epoch = s.epoch := rfl
@[simp] theorem setIlen_fresh (v : Word) (s : State) : (setIlen v s).fresh = s.fresh := rfl
@[simp] theorem setIlen_answer (v : Word) (s : State) : (setIlen v s).answer = s.answer := rfl
@[simp] theorem setIlen_schedule (v : Word) (s : State) : (setIlen v s).schedule = s.schedule := rfl

/-! ### putIbuf -/

@[simp] theorem putIbuf_cmd (i : Nat) (b : Byte) (s : State) : (putIbuf i b s).cmd = s.cmd := rfl
@[simp] theorem putIbuf_opState (i : Nat) (b : Byte) (s : State) : (putIbuf i b s).opState = s.opState := rfl
@[simp] theorem putIbuf_err (i : Nat) (b : Byte) (s : State) : (putIbuf i b s).err = s.err := rfl
@[simp] theorem putIbuf_fcause (i : Nat) (b : Byte) (s : State) : (putIbuf i b s).fcause = s.fcause := rfl
@[simp] theorem putIbuf_ilen (i : Nat) (b : Byte) (s : State) : (putIbuf i b s).ilen = s.ilen := rfl
@[simp] theorem putIbuf_olen (i : Nat) (b : Byte) (s : State) : (putIbuf i b s).olen = s.olen := rfl
@[simp] theorem putIbuf_ibuf (i : Nat) (b : Byte) (s : State) : (putIbuf i b s).ibuf = s.ibuf.write i b := rfl
@[simp] theorem putIbuf_obuf (i : Nat) (b : Byte) (s : State) : (putIbuf i b s).obuf = s.obuf := rfl
@[simp] theorem putIbuf_epoch (i : Nat) (b : Byte) (s : State) : (putIbuf i b s).epoch = s.epoch := rfl
@[simp] theorem putIbuf_fresh (i : Nat) (b : Byte) (s : State) : (putIbuf i b s).fresh = s.fresh := rfl
@[simp] theorem putIbuf_answer (i : Nat) (b : Byte) (s : State) : (putIbuf i b s).answer = s.answer := rfl
@[simp] theorem putIbuf_schedule (i : Nat) (b : Byte) (s : State) : (putIbuf i b s).schedule = s.schedule := rfl

/-! ### giveAnswer -/

@[simp] theorem giveAnswer_cmd (v : Answer) (s : State) : (giveAnswer v s).cmd = s.cmd := rfl
@[simp] theorem giveAnswer_opState (v : Answer) (s : State) : (giveAnswer v s).opState = s.opState := rfl
@[simp] theorem giveAnswer_err (v : Answer) (s : State) : (giveAnswer v s).err = s.err := rfl
@[simp] theorem giveAnswer_fcause (v : Answer) (s : State) : (giveAnswer v s).fcause = s.fcause := rfl
@[simp] theorem giveAnswer_ilen (v : Answer) (s : State) : (giveAnswer v s).ilen = s.ilen := rfl
@[simp] theorem giveAnswer_olen (v : Answer) (s : State) : (giveAnswer v s).olen = s.olen := rfl
@[simp] theorem giveAnswer_ibuf (v : Answer) (s : State) : (giveAnswer v s).ibuf = s.ibuf := rfl
@[simp] theorem giveAnswer_obuf (v : Answer) (s : State) : (giveAnswer v s).obuf = s.obuf := rfl
@[simp] theorem giveAnswer_epoch (v : Answer) (s : State) : (giveAnswer v s).epoch = s.epoch := rfl
@[simp] theorem giveAnswer_fresh (v : Answer) (s : State) : (giveAnswer v s).fresh = s.fresh := rfl
@[simp] theorem giveAnswer_answer (v : Answer) (s : State) : (giveAnswer v s).answer = some v := rfl
@[simp] theorem giveAnswer_schedule (v : Answer) (s : State) : (giveAnswer v s).schedule = s.schedule := rfl

/-! ### drawAnswer -/

@[simp] theorem drawAnswer_cmd (v : Answer) (s : State) : (drawAnswer v s).cmd = s.cmd := rfl
@[simp] theorem drawAnswer_opState (v : Answer) (s : State) : (drawAnswer v s).opState = s.opState := rfl
@[simp] theorem drawAnswer_err (v : Answer) (s : State) : (drawAnswer v s).err = s.err := rfl
@[simp] theorem drawAnswer_fcause (v : Answer) (s : State) : (drawAnswer v s).fcause = s.fcause := rfl
@[simp] theorem drawAnswer_ilen (v : Answer) (s : State) : (drawAnswer v s).ilen = s.ilen := rfl
@[simp] theorem drawAnswer_olen (v : Answer) (s : State) : (drawAnswer v s).olen = s.olen := rfl
@[simp] theorem drawAnswer_ibuf (v : Answer) (s : State) : (drawAnswer v s).ibuf = s.ibuf := rfl
@[simp] theorem drawAnswer_obuf (v : Answer) (s : State) : (drawAnswer v s).obuf = s.obuf := rfl
@[simp] theorem drawAnswer_epoch (v : Answer) (s : State) : (drawAnswer v s).epoch = s.epoch := rfl
@[simp] theorem drawAnswer_fresh (v : Answer) (s : State) : (drawAnswer v s).fresh = s.fresh + 1 := rfl
@[simp] theorem drawAnswer_answer (v : Answer) (s : State) : (drawAnswer v s).answer = some v := rfl
@[simp] theorem drawAnswer_schedule (v : Answer) (s : State) : (drawAnswer v s).schedule = s.schedule := rfl

/-! ### popMove -/

@[simp] theorem popMove_cmd (s : State) : (popMove s).cmd = s.cmd := rfl
@[simp] theorem popMove_opState (s : State) : (popMove s).opState = s.opState := rfl
@[simp] theorem popMove_err (s : State) : (popMove s).err = s.err := rfl
@[simp] theorem popMove_fcause (s : State) : (popMove s).fcause = s.fcause := rfl
@[simp] theorem popMove_ilen (s : State) : (popMove s).ilen = s.ilen := rfl
@[simp] theorem popMove_olen (s : State) : (popMove s).olen = s.olen := rfl
@[simp] theorem popMove_ibuf (s : State) : (popMove s).ibuf = s.ibuf := rfl
@[simp] theorem popMove_obuf (s : State) : (popMove s).obuf = s.obuf := rfl
@[simp] theorem popMove_epoch (s : State) : (popMove s).epoch = s.epoch := rfl
@[simp] theorem popMove_fresh (s : State) : (popMove s).fresh = s.fresh := rfl
@[simp] theorem popMove_answer (s : State) : (popMove s).answer = s.answer := rfl
@[simp] theorem popMove_schedule (s : State) : (popMove s).schedule = s.schedule.tail := rfl

/-! ### presentCommand -/

@[simp] theorem presentCommand_cmd (w : Word) (s : State) : (presentCommand w s).cmd = w := rfl
@[simp] theorem presentCommand_opState (w : Word) (s : State) : (presentCommand w s).opState = .busy := rfl
@[simp] theorem presentCommand_err (w : Word) (s : State) : (presentCommand w s).err = s.err := rfl
@[simp] theorem presentCommand_fcause (w : Word) (s : State) : (presentCommand w s).fcause = s.fcause := rfl
@[simp] theorem presentCommand_ilen (w : Word) (s : State) : (presentCommand w s).ilen = s.ilen := rfl
@[simp] theorem presentCommand_olen (w : Word) (s : State) : (presentCommand w s).olen = s.olen := rfl
@[simp] theorem presentCommand_ibuf (w : Word) (s : State) : (presentCommand w s).ibuf = s.ibuf := rfl
@[simp] theorem presentCommand_obuf (w : Word) (s : State) : (presentCommand w s).obuf = s.obuf := rfl
@[simp] theorem presentCommand_epoch (w : Word) (s : State) : (presentCommand w s).epoch = s.epoch := rfl
@[simp] theorem presentCommand_fresh (w : Word) (s : State) : (presentCommand w s).fresh = s.fresh := rfl
@[simp] theorem presentCommand_answer (w : Word) (s : State) : (presentCommand w s).answer = s.answer := rfl
@[simp] theorem presentCommand_schedule (w : Word) (s : State) : (presentCommand w s).schedule = engineFirst s.schedule := rfl

/-! ### reset -/

@[simp] theorem reset_cmd : State.reset.cmd = 0#32 := rfl
@[simp] theorem reset_opState : State.reset.opState = .idle := rfl
@[simp] theorem reset_err : State.reset.err = .ok := rfl
@[simp] theorem reset_fcause : State.reset.fcause = .none := rfl
@[simp] theorem reset_ilen : State.reset.ilen = 0#32 := rfl
@[simp] theorem reset_olen : State.reset.olen = 0#32 := rfl
@[simp] theorem reset_ibuf : State.reset.ibuf = [] := rfl
@[simp] theorem reset_obuf : State.reset.obuf = [] := rfl
@[simp] theorem reset_epoch : State.reset.epoch = 0 := rfl
@[simp] theorem reset_fresh : State.reset.fresh = 0 := rfl
@[simp] theorem reset_answer : State.reset.answer = none := rfl
@[simp] theorem reset_schedule : State.reset.schedule = [] := rfl

end Sys2Proof.Machine
end

