-- ==== Sys2Proof/Laws/Machine.lean ====
section
/-! SUPPORT. What the completion step, a host action and a step can do, said once. -/

namespace Sys2Proof.Machine

/-- The function of the input that a command computes. -/
def resultOf : Instr → List Byte → Result
  | .enc a => encResult romTables a
  | .dec a => decResult romTables a
  | .encb a bits => encbResult romTables a bits
  | .decb a bits => decbResult romTables a bits
  | .enc103 a => enc103Result romTables a
  | .dec103 a => dec103Result romTables a

/-- Every command completes, and how: its function of the input, written by `complete`. -/
theorem exec_eq (i : Instr) (s : State) : exec i s = .next (complete (outcomeOf (resultOf i) s) s) := by
  cases i <;> rfl

/-- The outcome of a command whose input fits IBUF. -/
theorem outcomeOf_of_le (f : List Byte → Result) (s : State) (h : s.ilen.toNat ≤ Config.ibufCap) :
    outcomeOf f s = f (inputBytes s) := if_neg (by omega)

/-- The outcome of a command whose input does not fit IBUF. -/
theorem outcomeOf_of_lt (f : List Byte → Result) (s : State) (h : Config.ibufCap < s.ilen.toNat) :
    outcomeOf f s = .fault .badLen := if_pos h

@[simp] theorem inputBytes_length (s : State) : (inputBytes s).length = s.ilen.toNat := by
  simp [inputBytes]

theorem inputBytes_getElem? (s : State) (k : Nat) (h : k < s.ilen.toNat) :
    (inputBytes s)[k]? = some (ibufByte s k) := by
  simp [inputBytes, h]

@[simp] theorem complete_ok (out : List Byte) (s : State) : complete (.ok out) s = finishOk out s := rfl
@[simp] theorem complete_err (k : ErrKind) (s : State) : complete (.err k) s = finishErr k s := rfl
@[simp] theorem complete_fault (c : Cause) (s : State) : complete (.fault c) s = takeFault c s := rfl

/-- The fields that no completion writes (60_exceptions.md R166 to R168). -/
theorem complete_keeps (r : Result) (s : State) :
    (complete r s).cmd = s.cmd ∧ (complete r s).ilen = s.ilen ∧ (complete r s).ibuf = s.ibuf ∧
    (complete r s).epoch = s.epoch ∧ (complete r s).fresh = s.fresh ∧ (complete r s).answer = s.answer ∧
    (complete r s).schedule = s.schedule := by
  cases r <;> exact ⟨rfl, rfl, rfl, rfl, rfl, rfl, rfl⟩

/-- IBUF_CAP is between 24 and 2863311530, so that OBUF_CAP fits the 32 bits of OLEN (assumptions 2 and 5). -/
theorem ibufCap_bounds : 24 ≤ Config.ibufCap ∧ Config.ibufCap ≤ 2863311530 := by
  unfold Config.ibufCap
  omega

theorem obufCap_lt : Config.obufCap < 2 ^ 32 := by
  have := ibufCap_bounds
  unfold Config.obufCap
  omega

/-- OLEN counts every result that fits OBUF. -/
theorem olen_toNat (n : Nat) (h : n ≤ Config.obufCap) : (BitVec.ofNat 32 n).toNat = n := by
  have := obufCap_lt
  rw [BitVec.toNat_ofNat, Nat.mod_eq_of_lt (by omega)]

/-- The block accepts host writes exactly in IDLE and DONE. -/
theorem accepts_iff (s : State) : accepts s = true ↔ s.opState = .idle ∨ s.opState = .done := by
  unfold accepts
  cases s.opState <;> simp

/-- Everything a host action can do: nothing to the block (a read, which only records its answer, or a dropped
write), or one of the three accepted writes. -/
theorem hostAct_cases (act : HostAction) (s : State) :
    hostAct act s = s ∨
    (∃ v, hostAct act s = giveAnswer v s) ∨
    (∃ v, hostAct act s = drawAnswer v s) ∨
    (∃ i b, act = .writeIbuf i b ∧ accepts s = true ∧ i < Config.ibufCap ∧ hostAct act s = putIbuf i b s) ∨
    (∃ v, act = .writeReg 2 v ∧ accepts s = true ∧ hostAct act s = setIlen v s) ∨
    (∃ w, act = .writeReg 0 w ∧ accepts s = true ∧ hostAct act s = acceptCmd w s) := by
  cases act with
  | writeIbuf i b =>
    by_cases h : accepts s = true ∧ i < Config.ibufCap
    · exact .inr (.inr (.inr (.inl ⟨i, b, rfl, h.1, h.2, if_pos h⟩)))
    · exact .inl (if_neg h)
  | readIbuf i =>
    simp only [hostAct, hostReadIbuf, answerByte]
    cases ibufValue s i with
    | some b => exact .inr (.inl ⟨_, rfl⟩)
    | none => exact .inr (.inr (.inl ⟨_, rfl⟩))
  | readObuf i =>
    simp only [hostAct, hostReadObuf, answerByte]
    cases obufValue s i with
    | some b => exact .inr (.inl ⟨_, rfl⟩)
    | none => exact .inr (.inr (.inl ⟨_, rfl⟩))
  | writeReg r v =>
    by_cases h : accepts s = true
    · match r with
      | 0 => exact .inr (.inr (.inr (.inr (.inr ⟨v, rfl, h, if_pos h⟩))))
      | 1 => exact .inl rfl
      | 2 => exact .inr (.inr (.inr (.inr (.inl ⟨v, rfl, h, if_pos h⟩))))
      | _ + 3 => exact .inl rfl
    · match r with
      | 0 => exact .inl (if_neg h)
      | 1 => exact .inl rfl
      | 2 => exact .inl (if_neg h)
      | _ + 3 => exact .inl rfl
  | readReg r =>
    simp only [hostAct, hostReadReg, answerWord]
    cases regValue s r with
    | some b => exact .inr (.inl ⟨_, rfl⟩)
    | none => exact .inr (.inr (.inl ⟨_, rfl⟩))

/-- Everything the engine's turn can do: rest, or complete the command in flight. -/
theorem engineTurn_cases (s : State) :
    (s.opState ≠ .busy ∧ engineTurn s = .next s) ∨
    (s.opState = .busy ∧ ∃ i, decode s.cmd = .ok i ∧
      engineTurn s = .next (complete (outcomeOf (resultOf i) s) s)) ∨
    (s.opState = .busy ∧ (∃ r, decode s.cmd = .error r) ∧ engineTurn s = .next (takeFault .illegalCmd s)) := by
  cases h : s.opState with
  | busy =>
    cases hd : decode s.cmd with
    | ok i => exact .inr (.inl ⟨rfl, i, rfl, by simp [engineTurn, h, completeCommand, hd, exec_eq]⟩)
    | error r => exact .inr (.inr ⟨rfl, ⟨r, rfl⟩, by simp [engineTurn, h, completeCommand, hd]⟩)
  | idle => exact .inl ⟨by simp, by simp [engineTurn, h]⟩
  | done => exact .inl ⟨by simp, by simp [engineTurn, h]⟩
  | fault => exact .inl ⟨by simp, by simp [engineTurn, h]⟩

/-- Everything a step can do, by the move it takes up. -/
theorem step_cases (s t : State) (h : step s = .next t) :
    (∃ act, nextMove s = .host act ∧ t = hostAct act (popMove s)) ∨
    (nextMove s = .engine ∧ engineTurn (popMove s) = .next t) ∨
    (nextMove s = .reset ∧ t = resetBlock (popMove s)) := by
  unfold step takeMove at h
  cases hm : nextMove s with
  | host act => rw [hm] at h; exact .inl ⟨act, rfl, (Host.Outcome.next.inj h).symm⟩
  | engine => rw [hm] at h; exact .inr (.inl ⟨rfl, h⟩)
  | reset => rw [hm] at h; exact .inr (.inr ⟨rfl, (Host.Outcome.next.inj h).symm⟩)

/-- The length of what the engine's turn leaves of the schedule. -/
theorem engineTurn_schedule (s t : State) (h : engineTurn s = .next t) : t.schedule = s.schedule := by
  rcases engineTurn_cases s with ⟨-, h'⟩ | ⟨-, i, -, h'⟩ | ⟨-, -, h'⟩
  · rw [h'] at h; cases h; rfl
  · rw [h'] at h; cases h; exact (complete_keeps _ _).2.2.2.2.2.2
  · rw [h'] at h; cases h; rfl

/-- A host action leaves the schedule alone. -/
@[simp] theorem hostAct_schedule (act : HostAction) (s : State) : (hostAct act s).schedule = s.schedule := by
  rcases hostAct_cases act s with h | ⟨v, h⟩ | ⟨v, h⟩ | ⟨i, b, -, -, -, h⟩ | ⟨v, -, -, h⟩ | ⟨w, -, -, h⟩ <;> simp [h]

/-- The engine has the turn when the schedule says so or is empty. -/
theorem nextMove_engine (s : State) (h : s.schedule = [] ∨ s.schedule.head? = some .engine) :
    nextMove s = .engine := by
  unfold nextMove
  cases hs : s.schedule with
  | nil => rfl
  | cons m ms => simpa [hs] using h

/-- A step in which the engine has the turn. -/
theorem step_engine (s : State) (h : s.schedule = [] ∨ s.schedule.head? = some .engine) :
    step s = engineTurn (popMove s) := by
  unfold step takeMove; rw [nextMove_engine s h]

/-- No step stops: every move has a next state (70_reset_and_hazards.md R196). -/
theorem step_has_next (s : State) : ∃ t, step s = .next t := by
  unfold step takeMove
  split
  · exact ⟨_, rfl⟩
  · rcases engineTurn_cases (popMove s) with ⟨-, h⟩ | ⟨-, i, -, h⟩ | ⟨-, -, h⟩ <;> exact ⟨_, h⟩
  · exact ⟨_, rfl⟩

/-- Every step takes one move off the schedule. -/
theorem step_schedule (s t : State) (h : step s = .next t) : t.schedule = s.schedule.tail := by
  rcases step_cases s t h with ⟨act, -, rfl⟩ | ⟨-, h⟩ | ⟨-, rfl⟩
  · simp
  · exact engineTurn_schedule _ _ h
  · simp

/-- A completed command has left BUSY (60_exceptions.md R166 to R168). -/
theorem complete_opState (r : Result) (s : State) :
    (complete r s).opState = .done ∨ (complete r s).opState = .fault := by
  cases r <;> simp

/-- A run peels off its first step. -/
theorem run_succ (k : Nat) (s t : State) (h : step s = .next t) :
    Host.Core.run core (k + 1) s = Host.Core.run core k t := by
  have h' : core.step s = .next t := h
  simp only [Host.Core.run, h']

end Sys2Proof.Machine
end

