-- ==== Sys2Proof/Laws/PerInstr.lean ====
section
/-! SUPPORT. Statements about every instruction as syntax, proved one instruction at a time (LAWS.json). -/

namespace Sys2Proof.Laws.EncodedFields

/-- The four fields of an encoded command are the ones its encoding names (30_encoding.md R70 to R73): nothing of
an operand runs into another field. -/
def Statement (i : Instr) : Prop :=
  i.wellFormed = true →
    rsvField (encode i) = 0 ∧ opField (encode i) = i.op ∧
    alphaField (encode i) = i.alphabet ∧ bitsField (encode i) = i.bitsValue

/-- The shared arithmetic: three fields laid side by side are read back. -/
theorem fields_of_number (i : Instr) (hwf : i.wellFormed = true) (hop : i.op < 8) (hb : i.bitsValue < 256) :
    rsvField (encode i) = 0 ∧ opField (encode i) = i.op ∧
    alphaField (encode i) = i.alphabet ∧ bitsField (encode i) = i.bitsValue := by
  have h := encode_toNat i hwf
  have ha : i.alphabet.bit ≤ 1 := by cases i.alphabet <;> simp [Alphabet.bit]
  refine ⟨?_, ?_, ?_, ?_⟩
  · simp only [rsvField, bitField, h]; omega
  · simp only [opField, bitField, h]; omega
  · have : bitField (encode i) 8 8 = i.alphabet.bit := by simp only [bitField, h]; omega
    rw [alphaField, this]
    cases i.alphabet <;> simp [Alphabet.bit]
  · simp only [bitsField, bitField, h]; omega

theorem enc (a : Alphabet) : Statement (.enc a) := fun h =>
  fields_of_number _ h (by simp [Instr.op]) (by simp [Instr.bitsValue])

theorem dec (a : Alphabet) : Statement (.dec a) := fun h =>
  fields_of_number _ h (by simp [Instr.op]) (by simp [Instr.bitsValue])

theorem encb (a : Alphabet) (bits : Nat) : Statement (.encb a bits) := fun h =>
  fields_of_number _ h (by simp [Instr.op]) (by simpa [Instr.wellFormed, Instr.bitsValue] using h)

theorem decb (a : Alphabet) (bits : Nat) : Statement (.decb a bits) := fun h =>
  fields_of_number _ h (by simp [Instr.op]) (by simpa [Instr.wellFormed, Instr.bitsValue] using h)

theorem enc103 (a : Alphabet) : Statement (.enc103 a) := fun h =>
  fields_of_number _ h (by simp [Instr.op]) (by simp [Instr.bitsValue])

theorem dec103 (a : Alphabet) : Statement (.dec103 a) := fun h =>
  fields_of_number _ h (by simp [Instr.op]) (by simp [Instr.bitsValue])

end Sys2Proof.Laws.EncodedFields
end

