-- ==== Sys2Proof/Laws/Results.lean ====
section
/-! SUPPORT. Every result fits OBUF, and OLEN counts it. -/

namespace Sys2Proof.Machine

theorem badBitCount_iff (bits : Nat) : badBitCount bits = true ↔ bits = 0 ∨ 128 < bits := by
  simp [badBitCount]

/-- The result of a command, if it has one, fits OBUF (10_state.md R32). -/
theorem result_fits (i : Instr) (s : State) (out : List Byte) (h : outcomeOf (resultOf i) s = .ok out) :
    out.length ≤ Config.obufCap := by
  have hc24 := ibufCap_bounds.1
  by_cases hc : Config.ibufCap < s.ilen.toNat
  · rw [outcomeOf_of_lt _ _ hc] at h; cases h
  · rw [outcomeOf_of_le _ _ (by omega)] at h
    have hcap : Config.obufCap = (3 * Config.ibufCap + 1) / 2 := rfl
    cases i with
    | enc a =>
      simp only [resultOf, encResult] at h
      cases h
      rw [encodeBytes_length, inputBytes_length]
      omega
    | dec a =>
      simp only [resultOf, decResult] at h
      split at h
      · rename_i o ho
        cases h
        have := decodeGroups_ok_length_le _ _ _ _ ho
        rw [inputBytes_length] at this
        omega
      · cases h
    | encb a bits =>
      simp only [resultOf, encbResult] at h
      split at h
      · cases h
      rename_i hb
      rw [badBitCount_iff] at hb
      split at h
      · cases h
      split at h
      · cases h
      cases h
      have := digitCount_le a bits (by omega)
      simp only [writeMsbFirst, List.length_map, List.length_reverse, extractDigits_length]
      omega
    | decb a bits =>
      simp only [resultOf, decbResult] at h
      split at h
      · cases h
      rename_i hb
      rw [badBitCount_iff] at hb
      split at h
      · cases h
      split at h
      · cases h
      cases h
      simp only [unpackLE_length]
      omega
    | enc103 a =>
      simp only [resultOf, enc103Result] at h
      split at h
      · cases h
      split at h
      · cases h
      cases h
      simp only [writeMsbFirst, List.length_map, List.length_reverse, extractDigits_length]
      omega
    | dec103 a =>
      simp only [resultOf, dec103Result] at h
      split at h
      · cases h
      split at h
      · cases h
      split at h
      · cases h
      split at h
      · cases h
      cases h
      simp only [unpackLE_length]
      omega

/-- OLEN after a result is the length of the result (10_state.md R30). -/
theorem result_olen (i : Instr) (s : State) (out : List Byte) (h : outcomeOf (resultOf i) s = .ok out) :
    (finishOk out s).olen.toNat = out.length :=
  olen_toNat _ (result_fits i s out h)

end Sys2Proof.Machine
end

