-- ==== Sys2Proof/Tests/Slice0.lean ====
section
/-! SUPPORT. Our own tests: the words and vectors of 95_test_vectors.md, and for every statement with hypotheses a
concrete case that meets them. -/

namespace Sys2Proof.Tests

open Sys2Proof.Machine

/- One theorem after the other: checked side by side, the many small theorems take a thread and its stack each. -/
set_option Elab.async false

/-! ### Helpers -/

/-- A block just out of reset into which the host has written an input and its length. -/
def loaded (input : List Byte) : State :=
  { State.reset with ibuf := Memory.holding 0 input, ilen := BitVec.ofNat 32 input.length }

/-- The same block with a command in flight. -/
def running (w : Word) (input : List Byte) : State :=
  { loaded input with cmd := w, opState := .busy }

/-- The next state of an outcome. -/
def nextOf : Host.Outcome State Fault Refusal → Option State
  | .next t => some t
  | .fault _ => none
  | .refused _ => none

/-- STATUS, OLEN and the specified bytes of OBUF of a next state. -/
def shown (o : Host.Outcome State Fault Refusal) : Option (Nat × Nat × List Nat) :=
  (nextOf o).map fun t => ((statusWord t).toNat, t.olen.toNat, t.obuf.map fun c => c.2.toNat)

/-- The codes of a string of characters below 128. -/
def codes (s : String) : List Nat := s.toList.map Char.toNat

/-- A string as input bytes. -/
def chars (s : String) : List Byte := (codes s).map (BitVec.ofNat 8)

/-! ### WellFormed: an ill-formed term for each check -/

theorem test_encb_bits_256_ill_formed : (Instr.encb .alpha43 256).wellFormed = false := by decide
theorem test_decb_bits_300_ill_formed : (Instr.decb .alpha44 300).wellFormed = false := by decide

/-! ### The decoder: fields RSV, OP, A, BITS written out (95_test_vectors.md K1 to K22) -/

theorem test_decode_enc : decode 0b00000000000000000000_001_1_00000000#32 = .ok (.enc .alpha44) := by decide
theorem test_decode_dec : decode 0b00000000000000000000_010_0_00000000#32 = .ok (.dec .alpha43) := by decide
theorem test_decode_encb : decode 0b00000000000000000000_011_1_01100111#32 = .ok (.encb .alpha44 103) := by decide
theorem test_decode_decb : decode 0b00000000000000000000_100_1_00000001#32 = .ok (.decb .alpha44 1) := by decide
theorem test_decode_enc103 : decode 0b00000000000000000000_101_0_00000000#32 = .ok (.enc103 .alpha43) := by decide
theorem test_decode_dec103 : decode 0b00000000000000000000_110_1_00000000#32 = .ok (.dec103 .alpha44) := by decide
theorem test_decode_bits_zero : decode 0x00000600#32 = .ok (.encb .alpha43 0) := by decide
theorem test_decode_bits_255 : decode 0x000009FF#32 = .ok (.decb .alpha44 255) := by decide
theorem test_decode_op_zero : decode 0x00000000#32 = .error .opReserved := by decide
theorem test_decode_op_seven : decode 0x00000F67#32 = .error .opReserved := by decide
theorem test_decode_enc_bits : decode 0x00000201#32 = .error .bitsNotZero := by decide
theorem test_decode_enc103_bits : decode 0x00000A67#32 = .error .bitsNotZero := by decide
theorem test_decode_rsv_low : decode 0x00001200#32 = .error .rsvNotZero := by decide
theorem test_decode_rsv_high : decode 0x80000400#32 = .error .rsvNotZero := by decide
theorem test_table_word : decodeTableWord 32 0x00000667 = some (.encb .alpha43 103) := by decide

/-- The placed word is what the very next step runs, whatever was scheduled. -/
theorem test_placed_word_runs :
    shown (step (({ loaded [0x41] with schedule := [.host (.readReg 1)] }).withFetchWord 32 0x200)) =
      some (2, 2, codes "M1") := by
  decide +kernel

/-! ### The commands: one step each (95_test_vectors.md, the row named) -/

/-- E17, ENC.43. -/
theorem test_enc_43 : shown (exec (.enc .alpha43) (loaded [0x12, 0x34, 0x56])) = some (2, 5, codes "GM202") := by
  decide +kernel
/-- E18, ENC.44, "Hello". -/
theorem test_enc_44 :
    shown (exec (.enc .alpha44) (loaded [0x48, 0x65, 0x6C, 0x6C, 0x6F])) = some (2, 8, codes "9P9$EEN2") := by
  decide +kernel
/-- X35, DEC.43. -/
theorem test_dec_43 : shown (exec (.dec .alpha43) (loaded (chars "3JZM1"))) = some (2, 3, [0xFF, 0xFF, 0x41]) := by
  decide +kernel
/-- X33: the overflow of the first triple, the tab after it never looked at. -/
theorem test_dec_first_group_decides : shown (exec (.dec .alpha44) (loaded (chars ":::\t"))) = some (0xE, 0, []) := by
  decide +kernel
/-- B16, ENCB.44 32. -/
theorem test_encb_44 :
    shown (exec (.encb .alpha44 32) (loaded [0xEF, 0xBE, 0xAD, 0xDE])) = some (2, 6, codes "MSX77B") := by
  decide +kernel
/-- B32: BAD_BITS before BAD_LEN. -/
theorem test_encb_fault_order :
    shown (exec (.encb .alpha43 0) (loaded (List.replicate 17 0))) = some (0x23, 0, []) := by
  decide +kernel
/-- Y15, DECB.44 16. -/
theorem test_decb_44 : shown (exec (.decb .alpha44 16) (loaded (chars "2MG"))) = some (2, 2, [0xF8, 0x12]) := by
  decide +kernel
/-- Y28, DECB.43 128: the invalid last character, the accumulator still in range. -/
theorem test_decb_invalid_last :
    shown (exec (.decb .alpha43 128) (loaded (chars "5HR9W%YM3OKTNBNTFA3ZK+H$"))) = some (6, 0, []) := by
  decide +kernel
/-- T2, ENC103.43. -/
theorem test_enc103_43 :
    shown (exec (.enc103 .alpha43) (loaded [0x0D, 0x0C, 0x0B, 0x0A, 0x09, 0x08, 0x07, 0x06, 0x05, 0x04, 0x03, 0x02, 0x01]))
      = some (2, 19, codes "0DPLJ*Y%BZU7L/-8VIJ") := by
  decide +kernel
/-- Q7: BAD_LEN before EXCESS. -/
theorem test_enc103_fault_order :
    shown (exec (.enc103 .alpha43) (loaded (List.replicate 12 0 ++ [0x80, 0]))) = some (0x33, 0, []) := by
  decide +kernel
/-- W5, DEC103.44: the largest value. -/
theorem test_dec103_44 :
    shown (exec (.dec103 .alpha44) (loaded (chars "QN*9:63LHLRGI5HYAY7"))) =
      some (2, 13, List.replicate 12 0xFF ++ [0x7F]) := by
  decide +kernel
/-- W12: the length comes before the characters. -/
theorem test_dec103_length_first :
    shown (exec (.dec103 .alpha43) (loaded (List.replicate 18 0x09))) = some (0xA, 0, []) := by
  decide +kernel

/-! ### The host and reset -/

/-- P7, step 3: a fault leaves ERR as it was. -/
theorem test_illegal_word_faults :
    shown (step { running 0x201#32 [0x41] with err := .err .dangling }) = some (0x1B, 0, []) := by
  decide +kernel
/-- P3, step 5: ERR is kept while BUSY. -/
theorem test_issue_keeps_err :
    shown (.next (hostAct (.writeReg 0 0x400#32) { loaded [0x2E, 0x35] with opState := .done, err := .err .dangling }))
      = some (9, 0, []) := by
  decide +kernel
/-- P4, step 5: a write in FAULT is dropped. -/
theorem test_fault_drops_write :
    ibufByte (hostAct (.writeIbuf 0 0x41) { loaded [0x00] with opState := .fault, fcause := .cause .badBits }) 0 = 0 := by
  decide +kernel
/-- A byte written in IDLE is read back. -/
theorem test_write_then_read :
    (hostAct (.readIbuf 23) (hostAct (.writeIbuf 23 0x5A) State.reset)).answer = some (.byte 0x5A) := by
  decide +kernel
/-- P4, step 8: reset leaves FAULT. -/
theorem test_reset_leaves_fault :
    shown (step { loaded [0x00] with opState := .fault, fcause := .cause .badBits, schedule := [.reset] }) =
      some (0, 0, []) := by
  decide +kernel

/-! ### A case that meets the hypotheses of each statement, clause by clause -/

theorem witness_DecodeOfEncode : (Instr.encb .alpha44 255).wellFormed = true := by decide

theorem witness_EncodeOfDecode : decode 0x000009FF#32 = .ok (.decb .alpha44 255) := by decide

theorem witness_LegalWordCounts :
    decode 0x00000880#32 = .ok (.decb .alpha43 128) ∧ State.reset.fcause = .none ∧
      ∃ t, exec (.decb .alpha43 128) State.reset = .next t :=
  ⟨by decide, rfl, _, rfl⟩

theorem witness_StepRunsDecodedCommand :
    (running 0x200#32 [0x41]).opState = .busy ∧ (running 0x200#32 [0x41]).schedule = [] ∧
    ({ running 0x200#32 [0x41] with schedule := [.engine, .reset] }).schedule.head? = some .engine ∧
    decode (running 0x200#32 [0x41]).cmd = .ok (.enc .alpha43) := by
  decide

theorem witness_ReservedWordFaults :
    (running 0x00001200#32 []).opState = .busy ∧ (running 0x00001200#32 []).schedule = [] ∧
    ReservedWord 0x00001200#32 ∧ ReservedWord 0x80000400#32 ∧ ReservedWord 0x00000000#32 ∧
    ReservedWord 0x00000E00#32 ∧ ReservedWord 0x00000201#32 ∧ ReservedWord 0x00000CFF#32 := by
  decide

theorem witness_EngineRestsUnlessBusy : State.reset.opState ≠ .busy ∧ State.reset.schedule = [] := by decide

theorem witness_StepMakesHostActionOrReset :
    ({ loaded [] with schedule := [.host (.readReg 3), .engine] }).schedule = .host (.readReg 3) :: [.engine] ∧
    ({ running 0x200#32 [0x41] with schedule := [.reset, .engine] }).schedule = .reset :: [.engine] := ⟨rfl, rfl⟩

theorem witness_CompletionStepIsExec_result :
    specExec 0x200#32 (running 0x200#32 [0x41]).ilen.toNat [0x41] = .ok (chars "M1") ∧
    (running 0x200#32 [0x41]).opState = .busy ∧ (running 0x200#32 [0x41]).schedule = [] := by
  decide +kernel

theorem witness_CompletionStepIsExec_error : specExec 0x400#32 1 (chars "A") = .err .dangling := by decide +kernel

theorem witness_CompletionStepIsExec_faults :
    specExec 0x201#32 0 [] = .fault .illegalCmd ∧ specExec 0x600#32 1 [0] = .fault .badBits := by
  decide +kernel

theorem witness_EncCompletes :
    (loaded [0xFF, 0xFF, 0x41]).ilen.toNat ≤ Config.ibufCap ∧ 2 * 0 + 1 < (loaded [0xFF, 0xFF, 0x41]).ilen.toNat ∧
    (loaded [0xFF, 0xFF, 0x41]).ilen.toNat % 2 = 1 := by
  decide +kernel

/-- Tables that differ from the default ones: the characters at the free indices 2 and 4 exchanged. -/
def otherTables : Config.Tables where
  alpha43 := (romTables.alpha43.set 2 0x34).set 4 0x32
  alpha44 := (romTables.alpha44.set 2 0x34).set 4 0x32

theorem otherTables_legal : LegalTables otherTables where
  rom43 := ⟨by decide, by decide, by unfold AlphabetChar; decide⟩
  rom44 := ⟨by decide, by decide, by unfold AlphabetChar; decide⟩
  dollar := by decide
  superset := by decide +kernel
  fixed43 := by decide
  memberA := by decide
  fixed44 := by decide

theorem otherTables_not_default : otherTables ≠ romTables := by decide

theorem witness_EncodersWriteAlphabetCharacters :
    LegalTables otherTables ∧ encResult otherTables .alpha43 [0x00, 0x02] = .ok [0x34, 0x30, 0x30] ∧
    encbResult otherTables .alpha43 2 [0x02] = .ok [0x34] ∧
    enc103Result otherTables .alpha43 (0x02 :: List.replicate 12 0) = .ok (List.replicate 18 0x30 ++ [0x34]) :=
  ⟨otherTables_legal, by decide +kernel, by decide +kernel, by decide +kernel⟩

theorem witness_DecCompletes :
    (loaded (chars "3JZ.5")).ilen.toNat ≤ Config.ibufCap ∧ (loaded (chars "3JZ.5")).ilen.toNat % 3 = 2 ∧
    tripleAt .alpha43 (loaded (chars "3JZ.5")) (3 * 0) = some 65535 ∧
    pairAt .alpha43 (loaded (chars "3JZ.5")) 3 = some 255 := by
  decide +kernel

theorem witness_DecStopsAtFirstBadGroup_triple :
    tripleAt .alpha43 (loaded (chars "3JZ4JZ")) (3 * 0) = some 65535 ∧
    (loaded (chars "3JZ4JZ")).ilen.toNat ≤ Config.ibufCap ∧ 3 * 1 + 2 < (loaded (chars "3JZ4JZ")).ilen.toNat ∧
    tripleAt .alpha43 (loaded (chars "3JZ4JZ")) (3 * 1) = some 65536 ∧
    tripleAt .alpha43 (loaded (chars "3JZ::\t")) (3 * 1) = none := by
  decide +kernel

theorem witness_DecStopsAtFirstBadGroup_leftover :
    3 * 0 + 1 = (loaded (chars "A")).ilen.toNat ∧ val romTables .alpha43 (ibufByte (loaded (chars "A")) 0) ≠ none ∧
    3 * 1 + 1 = (loaded (chars "000\t")).ilen.toNat ∧
    val romTables .alpha43 (ibufByte (loaded (chars "000\t")) 3) = none := by
  decide +kernel

theorem witness_DecStopsAtFirstBadGroup_pair :
    3 * 0 + 2 = (loaded (chars "/5")).ilen.toNat ∧ pairAt .alpha43 (loaded (chars "/5")) (3 * 0) = some 256 ∧
    3 * 0 + 2 = (loaded (chars " 0")).ilen.toNat ∧ pairAt .alpha43 (loaded (chars " 0")) (3 * 0) = none := by
  decide +kernel

theorem witness_EncbCompletes :
    (loaded [0x01]).ilen.toNat ≤ 16 ∧ inputValue (loaded [0x01]) 1 < 2 ^ 1 ∧
    (loaded (List.replicate 16 0xFF)).ilen.toNat ≤ 16 ∧ inputValue (loaded (List.replicate 16 0xFF)) 16 < 2 ^ 128 := by
  decide +kernel

theorem witness_EncbFaultsInOrder :
    (loaded (List.replicate 17 0)).ilen.toNat ≤ Config.ibufCap ∧ 16 < (loaded (List.replicate 17 0)).ilen.toNat ∧
    (loaded [0x80]).ilen.toNat ≤ 16 ∧ 2 ^ 7 ≤ inputValue (loaded [0x80]) (loaded [0x80]).ilen.toNat ∧
    (loaded (List.replicate 15 0 ++ [0x80])).ilen.toNat ≤ 16 ∧
    2 ^ 127 ≤ inputValue (loaded (List.replicate 15 0 ++ [0x80])) 16 := by
  decide +kernel

theorem witness_EncbResultLength :
    ((nextOf (exec (.encb .alpha44 128) (loaded []))).map (·.opState)) = some .done := by
  decide +kernel

theorem witness_DecbCompletes :
    (∀ k, k < 2 → val romTables .alpha43 (ibufByte (loaded (chars "5.")) k) = some ([5, 40].getD k 0)) ∧
    (loaded (chars "5.")).ilen.toNat = 2 ∧ prefixValue 43 (fun k => [5, 40].getD k 0) 2 = 255 ∧
    (loaded (chars "5.")).ilen.toNat ≤ Config.ibufCap := by
  decide +kernel

theorem witness_DecbCompletes_empty :
    (loaded []).ilen.toNat ≤ Config.ibufCap ∧ (loaded []).ilen.toNat = 0 ∧ prefixValue 43 id 0 < 2 ^ 1 := by
  decide +kernel

theorem witness_DecbStopsAtFirstBadCharacter_invalid :
    (∀ k, k < 1 → val romTables .alpha43 (ibufByte (loaded (chars "5a")) k) = some ((fun _ => 5) k)) ∧
    prefixValue 43 (fun _ => 5) 1 < 2 ^ 128 ∧ 1 < (loaded (chars "5a")).ilen.toNat ∧
    val romTables .alpha43 (ibufByte (loaded (chars "5a")) 1) = none := by
  decide +kernel

/-- Y27: the 24th character takes the value to exactly `2^128`. -/
theorem witness_DecbStopsAtFirstBadCharacter_overflow :
    let s := loaded (chars "971JHGVDYYG:*VCDKOJ6K/:4")
    let d := fun k => (val romTables .alpha43 (ibufByte s k)).getD 0
    (∀ k, k < 23 → val romTables .alpha43 (ibufByte s k) = some (d k)) ∧ prefixValue 43 d 23 < 2 ^ 128 ∧
    23 < s.ilen.toNat ∧ val romTables .alpha43 (ibufByte s 23) = some 4 ∧ prefixValue 43 d 23 * 43 + 4 = 2 ^ 128 ∧
    s.ilen.toNat ≤ Config.ibufCap := by
  decide +kernel

theorem witness_DecbStopsAtFirstBadCharacter_range :
    (∀ k, k < 2 → val romTables .alpha43 (ibufByte (loaded (chars "5/")) k) = some ([5, 41].getD k 0)) ∧
    2 = (loaded (chars "5/")).ilen.toNat ∧ prefixValue 43 (fun k => [5, 41].getD k 0) 2 = 2 ^ 8 := by
  decide +kernel

theorem witness_DecbFaultsOnBitCount :
    (loaded (chars "\t")).ilen.toNat ≤ Config.ibufCap ∧ ((0 : Nat) = 0 ∨ 128 < 0) ∧ (129 = 0 ∨ 128 < 129) := by
  decide +kernel

theorem witness_DecbResultLength :
    ((nextOf (exec (.decb .alpha43 1) (loaded (chars "1")))).map fun t => (t.opState, t.err)) = some (.done, .ok) := by
  decide +kernel

theorem witness_Enc103Completes :
    (loaded (List.replicate 12 0xFF ++ [0x7F])).ilen.toNat = 13 ∧
    inputValue (loaded (List.replicate 12 0xFF ++ [0x7F])) 13 = 2 ^ 103 - 1 := by
  decide +kernel

theorem witness_Enc103FaultsInOrder :
    (loaded (List.replicate 12 0)).ilen.toNat ≠ 13 ∧ (loaded (List.replicate 12 0 ++ [0x80])).ilen.toNat = 13 ∧
    (ibufByte (loaded (List.replicate 12 0 ++ [0x80])) 12).getLsbD 7 = true := by
  decide +kernel

/-- W4 and W6: `2^103 - 1` and `2^103`. -/
theorem witness_Dec103Completes :
    let s := loaded (chars ".6EMYL3%LHEVM8PCWWV")
    let d := fun k => (val romTables .alpha43 (ibufByte s k)).getD 0
    s.ilen.toNat = 19 ∧ (∀ k, k < 19 → val romTables .alpha43 (ibufByte s k) = some (d k)) ∧
    prefixValue 43 d 19 = 2 ^ 103 - 1 := by
  decide +kernel

theorem witness_Dec103ErrorsInOrder_overflow :
    let s := loaded (chars ".6EMYL3%LHEVM8PCWWW")
    let d := fun k => (val romTables .alpha43 (ibufByte s k)).getD 0
    s.ilen.toNat ≤ Config.ibufCap ∧ s.ilen.toNat = 19 ∧
    (∀ k, k < 19 → val romTables .alpha43 (ibufByte s k) = some (d k)) ∧ prefixValue 43 d 19 = 2 ^ 103 := by
  decide +kernel

theorem witness_Dec103ErrorsInOrder_characters :
    (loaded (List.replicate 18 0x30 ++ [0x61])).ilen.toNat = 19 ∧
    val romTables .alpha43 (ibufByte (loaded (List.replicate 18 0x30 ++ [0x61])) 18) = none ∧
    (loaded (List.replicate 20 0x30)).ilen.toNat ≠ 19 ∧ (loaded (List.replicate 20 0x30)).ilen.toNat ≤ Config.ibufCap := by
  decide +kernel

theorem witness_Dec103ChecksNeverFire :
    LegalTables otherTables ∧ (List.replicate 19 (0x3A : Byte)).length = 19 ∧
    accumulate otherTables .alpha44 0 (List.replicate 19 0x3A) = .ok (44 ^ 19 - 1) :=
  ⟨otherTables_legal, by decide, by decide +kernel⟩

theorem witness_Fixed103IsFixedWidthAt103 :
    (loaded (List.replicate 13 0)).ilen.toNat = 13 ∧ (loaded (List.replicate 19 0x30)).ilen.toNat = 19 := by
  decide +kernel

/-- Q3: no IBUF holds `0xFFFFFFFF` bytes. -/
theorem witness_OversizedInputFaults :
    Config.ibufCap < ({ State.reset with ilen := 0xFFFFFFFF#32 }).ilen.toNat := by
  have h := ibufCap_bounds.2
  have e : ({ State.reset with ilen := 0xFFFFFFFF#32 } : State).ilen.toNat = 4294967295 := rfl
  omega

theorem witness_FaultCausesExact :
    (loaded [0x02]).fcause = .none ∧
    (nextOf (exec (.encb .alpha43 1) (loaded [0x02]))).map (·.fcause) = some (.cause .excess) ∧
    (nextOf (exec (.enc103 .alpha43) (loaded []))).map (·.fcause) = some (.cause .badLen) ∧
    (nextOf (exec (.decb .alpha43 129) (loaded []))).map (·.fcause) = some (.cause .badBits) := by
  decide +kernel

theorem witness_ErrorKindsHaveTheirCauses :
    (nextOf (exec (.dec .alpha43) (loaded (chars "A")))).map (·.err) = some (.err .dangling) ∧
    (nextOf (exec (.dec103 .alpha43) (loaded []))).map (·.err) = some (.err .dangling) ∧
    (nextOf (exec (.decb .alpha43 8) (loaded (chars "$")))).map (·.err) = some (.err .invalidChar) := by
  decide +kernel

theorem witness_CommandFrame : ∃ t, exec (.enc .alpha43) (loaded [0x41]) = .next t := ⟨_, rfl⟩

theorem witness_OutcomeDependsOnInputOnly :
    let s := loaded [0x41]
    let s' := { loaded [0x41] with cmd := 1#32, olen := 7#32, err := .err .overflow, obuf := [(9, 9)], fresh := 3 }
    s.ilen = s'.ilen ∧ (∀ k, k < s.ilen.toNat → ibufByte s k = ibufByte s' k) ∧ s ≠ s' ∧
    (nextOf (exec (.enc .alpha44) s)).isSome ∧ (nextOf (exec (.enc .alpha44) s')).isSome := by
  decide +kernel

theorem witness_HostWriteIbufEffect : State.reset.opState = .idle ∧ 23 < Config.ibufCap ∧ Config.ibufCap ≤ 2863311530 :=
  ⟨rfl, by have := ibufCap_bounds.1; omega, ibufCap_bounds.2⟩

/-- For HostWriteIbufEffect, HostWriteRegEffect, CommandIssue and HostReadRegValues. -/
theorem witness_HostActions_accepting :
    (loaded []).opState = .idle ∧ ({ loaded [] with opState := .done }).opState = .done := by decide

/-- For the same, for HostReadBufferValues and for HostCannotTouchBusyBlock. -/
theorem witness_HostActions_dropping :
    (running 0#32 []).opState = .busy ∧ ({ loaded [] with opState := .fault, fcause := .cause .excess }).opState = .fault := by
  decide

theorem witness_HostReadBufferValues :
    let s := { loaded [0xFF] with opState := .done, olen := 2#32, obuf := Memory.holding 0 (chars ".5") }
    s.opState = .done ∧ s.err = .ok ∧ 1 < s.olen.toNat ∧ s.obuf.find 1 = some 0x35 ∧ 1 < Config.obufCap ∧
    ¬ 2 < s.olen.toNat :=
  ⟨rfl, rfl, by decide, by decide, by have := ibufCap_bounds.1; unfold Config.obufCap; omega, by decide⟩

/-- The invariant of a block with a result to read. -/
theorem witness_ResultBytesAreReadable :
    let s := { loaded [0xFF] with cmd := 0x200#32, opState := .done, olen := 2#32, obuf := Memory.holding 0 (chars ".5") }
    Inv s ∧ s.opState = .done ∧ s.err = .ok ∧ 1 < s.olen.toNat := by
  have h := ibufCap_bounds.1
  refine ⟨⟨rfl, fun c hc => ?_, ⟨chars ".5", rfl, ?_, fun _ _ => rfl⟩, fun _ => ⟨rfl, rfl⟩, fun _ e => absurd rfl e,
    ⟨fun e => absurd rfl e, fun e => (nomatch e)⟩, fun e => (nomatch e)⟩, rfl, rfl, by decide⟩
  · rw [List.mem_singleton.1 hc]
    exact Nat.lt_of_lt_of_le (by decide) h
  · exact Nat.le_trans (show 2 ≤ 36 by decide) (by unfold Config.obufCap; omega)

theorem witness_StepKeepsInvariant :
    Inv (running 0x200#32 [0x41]) ∧ ∃ t, step (running 0x200#32 [0x41]) = .next t := by
  have h := ibufCap_bounds.1
  refine ⟨⟨rfl, fun c hc => ?_, ⟨[], rfl, Nat.zero_le _, fun e => (nomatch e)⟩, fun e => absurd rfl e, fun e => (nomatch e),
    ⟨fun e => absurd rfl e, fun e => (nomatch e)⟩, fun e => (nomatch e)⟩, _, rfl⟩
  rw [List.mem_singleton.1 hc]
  exact Nat.lt_of_lt_of_le (by decide) h

theorem witness_TransitionsExact : ∃ t, step (running 0x600#32 [0x00]) = .next t := ⟨_, rfl⟩

theorem witness_FaultIsStickyUntilReset :
    let s := { loaded [0x00] with
      opState := .fault, fcause := .cause .badBits, schedule := [.host (.writeReg 0 0x200#32), .engine] }
    s.opState = .fault ∧ Move.reset ∉ s.schedule ∧ ∃ t, Host.Core.run core 3 s = .next t :=
  ⟨rfl, by decide, _, rfl⟩

theorem witness_OperandsHeldWhileBusy :
    let s := { running 0x300#32 [0xFF] with schedule := [.host (.writeIbuf 0 0x41)] }
    s.opState = .busy ∧ nextMove s ≠ .reset ∧ nextMove s ≠ .engine ∧ ∃ t, step s = .next t :=
  ⟨rfl, by decide, by decide, _, rfl⟩

theorem witness_AlphabetLookupBijection :
    LegalTables otherTables ∧ 43 < radix .alpha44 ∧ val otherTables .alpha44 0x3A = some 43 :=
  ⟨otherTables_legal, by decide, by decide⟩

theorem witness_DigitCountIsLeast :
    (1 ≤ 38 ∧ 38 ≤ 128) ∧ 7 < digitCount .alpha43 38 ∧ 6 < digitCount .alpha44 38 ∧ 23 < digitCount .alpha44 128 := by
  decide +kernel

theorem witness_ExtractionStaysInRange : divmod .alpha43 65535 = (1524, 3) ∧ divmod .alpha44 255 = (5, 35) := by
  decide +kernel

theorem witness_PackingIsLittleEndian : 4660 < 2 ^ (8 * 2) ∧ unpackLE 4660 2 = [0x34, 0x12] := by decide +kernel

/-- M14 and M15: `2^128 - 1` and `2^128`. -/
theorem witness_MultiplyAddIsExact :
    7733690157294055987803968350722004805 < 2 ^ 128 ∧ 36 < radix .alpha44 ∧
    7733690157294055987803968350722004805 * 44 + 35 = 2 ^ 128 - 1 := by
  decide +kernel

theorem witness_BytePairRoundTrip :
    LegalTables otherTables ∧ decResult otherTables .alpha44 (chars "4:W") = .ok [0xF9, 0x66] ∧
    (decResult otherTables .alpha44 []) = .ok [] :=
  ⟨otherTables_legal, by decide +kernel, by decide +kernel⟩

theorem witness_FixedWidthRoundTrip :
    LegalTables otherTables ∧ (List.replicate 16 (0xFF : Byte)).length ≤ 16 ∧
    packLE (List.replicate 16 0xFF) < 2 ^ 128 ∧ packLE [0x01, 0x00] < 2 ^ 1 :=
  ⟨otherTables_legal, by decide +kernel, by decide +kernel, by decide +kernel⟩

theorem witness_FixedWidthDecodeThenEncode :
    LegalTables otherTables ∧ decbResult otherTables .alpha43 8 (chars "5.") = .ok [0xFF] ∧
    (chars "5.").length = digitCount .alpha43 8 :=
  ⟨otherTables_legal, by decide +kernel, by decide +kernel⟩

theorem witness_Fixed103Bijection :
    LegalTables otherTables ∧ (List.replicate 12 (0xFF : Byte) ++ [0x7F]).length = 13 ∧
    packLE (List.replicate 12 0xFF ++ [0x7F]) < 2 ^ 103 ∧
    dec103Result otherTables .alpha43 (List.replicate 19 0x30) = .ok (List.replicate 13 0) :=
  ⟨otherTables_legal, by decide +kernel, by decide +kernel, by decide +kernel⟩

theorem witness_MachineBytePairRoundTrip :
    let s := loaded [0xFF, 0xFF, 0x41]
    let u := loaded (chars "3JZM1")
    s.ilen.toNat ≤ Config.ibufCap ∧ (3 * s.ilen.toNat + 1) / 2 ≤ Config.ibufCap ∧
    (nextOf (exec (.enc .alpha43) s)).map (·.olen) = some u.ilen ∧
    ∀ k, k < 5 → ((nextOf (exec (.enc .alpha43) s)).bind fun t => t.obuf.find k) = some (ibufByte u k) := by
  decide +kernel

end Sys2Proof.Tests
end

section
/-! PROOFS. The family 10_state.md: the register STATUS, what a command's outcome depends on, the transitions of the
operating state, and the invariant that every step keeps. -/

namespace Sys2Proof.Machine

/-! ### STATUS (10_state.md R25 to R28) -/

theorem stateCode_lt (o : OpState) : stateCode o < 4 := by cases o <;> decide

theorem errCode_lt (e : ErrField) : errCode e < 4 := by
  cases e with
  | ok => decide
  | err k => cases k <;> decide

theorem fcauseCode_lt (f : FCauseField) : fcauseCode f < 8 := by
  cases f with
  | none => decide
  | cause c => cases c <;> decide

/-- STATUS as a number: 32 bits hold the three fields side by side. -/
theorem statusWord_toNat (s : State) :
    (statusWord s).toNat = stateCode s.opState + errCode s.err * 4 + fcauseCode s.fcause * 16 := by
  have h1 := stateCode_lt s.opState
  have h2 := errCode_lt s.err
  have h3 := fcauseCode_lt s.fcause
  rw [statusWord, BitVec.toNat_ofNat]
  omega

/-- A slice of a word is the number that division and remainder cut out of it. -/
theorem extractLsb'_eq_ofNat (w : Word) (start len : Nat) :
    w.extractLsb' start len = BitVec.ofNat len (w.toNat / 2 ^ start) := by
  apply BitVec.eq_of_toNat_eq
  simp [Nat.shiftRight_eq_div_pow]

theorem statusWord_state (s : State) : (statusWord s).extractLsb' 0 2 = BitVec.ofNat 2 (stateCode s.opState) := by
  have h1 := stateCode_lt s.opState
  rw [extractLsb'_eq_ofNat, statusWord_toNat]
  apply BitVec.eq_of_toNat_eq
  simp only [BitVec.toNat_ofNat]
  omega

theorem statusWord_err (s : State) : (statusWord s).extractLsb' 2 2 = BitVec.ofNat 2 (errCode s.err) := by
  have h1 := stateCode_lt s.opState
  have h2 := errCode_lt s.err
  rw [extractLsb'_eq_ofNat, statusWord_toNat]
  apply BitVec.eq_of_toNat_eq
  simp only [BitVec.toNat_ofNat]
  omega

theorem statusWord_fcause (s : State) : (statusWord s).extractLsb' 4 3 = BitVec.ofNat 3 (fcauseCode s.fcause) := by
  have h1 := stateCode_lt s.opState
  have h2 := errCode_lt s.err
  rw [extractLsb'_eq_ofNat, statusWord_toNat]
  congr 1
  omega

theorem statusWord_reserved (s : State) : (statusWord s).extractLsb' 7 25 = 0 := by
  have h1 := stateCode_lt s.opState
  have h2 := errCode_lt s.err
  have h3 := fcauseCode_lt s.fcause
  rw [extractLsb'_eq_ofNat, statusWord_toNat, Nat.div_eq_of_lt (by omega)]
  rfl

/-- Settles O39: each slice is the code of its field, and the codes are those of R26 to R28. -/
theorem statusRegister : Obligations.StatusRegister := by
  refine ⟨fun s => ⟨?_, ?_, ?_, statusWord_reserved s⟩, fun _ _ => rfl, fun _ => rfl, rfl⟩
  · rw [statusWord_state]
    cases s.opState <;> rfl
  · rw [statusWord_err]
    cases s.err with
    | ok => rfl
    | err k => cases k <;> rfl
  · rw [statusWord_fcause]
    cases s.fcause with
    | none => rfl
    | cause c => cases c <;> rfl

/-! ### What an outcome depends on (10_state.md R35) -/

/-- The input is determined by ILEN and the first ILEN bytes of IBUF. -/
theorem inputBytes_congr (s s' : State) (hlen : s.ilen = s'.ilen)
    (hbytes : ∀ k, k < s.ilen.toNat → ibufByte s k = ibufByte s' k) : inputBytes s = inputBytes s' := by
  unfold inputBytes
  rw [← hlen]
  exact List.map_congr_left fun k hk => hbytes k (List.mem_range.1 hk)

theorem outcomeOf_congr (f : List Byte → Result) (s s' : State) (hlen : s.ilen = s'.ilen)
    (hbytes : ∀ k, k < s.ilen.toNat → ibufByte s k = ibufByte s' k) : outcomeOf f s = outcomeOf f s' := by
  unfold outcomeOf
  rw [inputBytes_congr s s' hlen hbytes, hlen]

/-- One outcome written into two states: the fields it writes agree, whatever the states held. -/
theorem complete_agrees (r : Result) (s s' : State) :
    (complete r s).opState = (complete r s').opState ∧
    ((complete r s).opState = .done → (complete r s).err = (complete r s').err ∧
      (complete r s).olen = (complete r s').olen ∧ (complete r s).obuf = (complete r s').obuf) ∧
    ((complete r s).opState = .fault → (complete r s).fcause = (complete r s').fcause) := by
  cases r with
  | ok out => exact ⟨rfl, fun _ => ⟨rfl, rfl, rfl⟩, fun h => nomatch h⟩
  | err k => exact ⟨rfl, fun _ => ⟨rfl, rfl, rfl⟩, fun h => nomatch h⟩
  | fault c => exact ⟨rfl, (fun h => nomatch h), fun _ => rfl⟩

/-- Settles O33: the two runs complete with one outcome. -/
theorem outcomeDependsOnInputOnly : Obligations.OutcomeDependsOnInputOnly := by
  intro i s s' t t' hlen hbytes ht ht'
  rw [exec_eq] at ht ht'
  cases ht
  cases ht'
  rw [outcomeOf_congr _ s s' hlen hbytes]
  exact complete_agrees _ s s'

/-! ### The transitions of the operating state (10_state.md R26) -/

/-- A CMD write goes to BUSY where the block accepts it, and is dropped elsewhere. -/
theorem hostAct_writeCmd_transition (w : Word) (s : State) :
    AllowedTransition (.host (.writeReg 0 w)) s.opState (hostAct (.writeReg 0 w) s).opState := by
  by_cases ha : s.opState = .idle ∨ s.opState = .done
  · have hw : hostAct (.writeReg 0 w) s = acceptCmd w s := if_pos ((accepts_iff s).2 ha)
    simp only [AllowedTransition, if_pos ha, hw, acceptCmd_opState]
  · have hw : hostAct (.writeReg 0 w) s = s := if_neg (mt (accepts_iff s).1 ha)
    simp only [AllowedTransition, if_neg ha, hw]

/-- No host action but a CMD write changes STATE. -/
theorem hostAct_opState_of_ne (act : HostAction) (s : State) (hne : ∀ w, act ≠ .writeReg 0 w) :
    (hostAct act s).opState = s.opState := by
  rcases hostAct_cases act s with h | ⟨v, h⟩ | ⟨v, h⟩ | ⟨i, b, -, -, -, h⟩ | ⟨v, -, -, h⟩ | ⟨w, hw, -, -⟩
  case inr.inr.inr.inr.inr => exact absurd hw (hne w)
  all_goals simp [h]

theorem hostAct_transition (act : HostAction) (s : State) :
    AllowedTransition (.host act) s.opState (hostAct act s).opState := by
  match act with
  | .writeReg 0 w => exact hostAct_writeCmd_transition w s
  | .writeReg (_ + 1) _ | .writeIbuf _ _ | .readIbuf _ | .readObuf _ | .readReg _ =>
    exact hostAct_opState_of_ne _ s (by simp)

theorem engineTurn_transition (s t : State) (h : engineTurn s = .next t) :
    AllowedTransition .engine s.opState t.opState := by
  unfold AllowedTransition
  rcases engineTurn_cases s with ⟨hb, h'⟩ | ⟨hb, i, -, h'⟩ | ⟨hb, -, h'⟩
  · cases h'.symm.trans h
    rw [if_neg hb]
  · cases h'.symm.trans h
    rw [if_pos hb]
    exact complete_opState _ s
  · cases h'.symm.trans h
    rw [if_pos hb]
    exact .inr rfl

/-- Settles O45, by the move the step takes up. -/
theorem transitionsExact : Obligations.TransitionsExact := by
  intro s t h
  rcases step_cases s t h with ⟨act, hm, rfl⟩ | ⟨hm, he⟩ | ⟨hm, rfl⟩ <;> rw [hm]
  · exact hostAct_transition act (popMove s)
  · exact engineTurn_transition (popMove s) t he
  · exact resetBlock_opState _

/-! ### The invariant, kept by every operation (10_state.md R24 to R32; 60_exceptions.md R166 to R168) -/

/-- The invariant does not speak of the fields that record the block's surroundings. -/
theorem inv_surroundings (s : State) (h : Inv s) (fresh : Nat) (answer : Option Answer) (schedule : List Move) :
    Inv { s with fresh := fresh, answer := answer, schedule := schedule } :=
  ⟨h.ibufWf, h.ibufRange, h.obufHolds, h.obufOnlyResult, h.errNoOutput, h.faultCause, h.idleClean⟩

theorem inv_popMove (s : State) (h : Inv s) : Inv (popMove s) := inv_surroundings s h _ _ _

theorem inv_giveAnswer (v : Answer) (s : State) (h : Inv s) : Inv (giveAnswer v s) := inv_surroundings s h _ _ _

theorem inv_drawAnswer (v : Answer) (s : State) (h : Inv s) : Inv (drawAnswer v s) := inv_surroundings s h _ _ _

theorem inv_setIlen (v : Word) (s : State) (h : Inv s) : Inv (setIlen v s) :=
  ⟨h.ibufWf, h.ibufRange, h.obufHolds, h.obufOnlyResult, h.errNoOutput, h.faultCause, h.idleClean⟩

theorem inv_putIbuf (i : Nat) (b : Byte) (s : State) (hi : i < Config.ibufCap) (h : Inv s) : Inv (putIbuf i b s) where
  ibufWf := memory_wf_write s.ibuf h.ibufWf i b
  ibufRange c hc := by
    rcases memory_mem_write s.ibuf i b c hc with rfl | hc
    · exact hi
    · exact h.ibufRange c hc
  obufHolds := h.obufHolds
  obufOnlyResult := h.obufOnlyResult
  errNoOutput := h.errNoOutput
  faultCause := h.faultCause
  idleClean := h.idleClean

/-- FCAUSE is NONE outside FAULT (10_state.md R28). -/
theorem inv_fcause_none (s : State) (h : Inv s) (hs : s.opState ≠ .fault) : s.fcause = .none := by
  by_contra hc
  exact hs (h.faultCause.1 hc)

/-- An accepted command: OBUF is emptied, and a block that accepts has no cause in FCAUSE. -/
theorem inv_acceptCmd (w : Word) (s : State) (ha : accepts s = true) (h : Inv s) : Inv (acceptCmd w s) where
  ibufWf := h.ibufWf
  ibufRange := h.ibufRange
  obufHolds := ⟨[], rfl, Nat.zero_le _, fun hd => nomatch hd⟩
  obufOnlyResult hne := absurd rfl hne
  errNoOutput hd := nomatch hd
  faultCause := by
    have hs : s.opState ≠ .fault := by rcases (accepts_iff s).1 ha with e | e <;> simp [e]
    simp [inv_fcause_none s h hs]
  idleClean hi := nomatch hi

/-- A result that fits OBUF: OLEN counts it (assumption 5). -/
theorem inv_finishOk (out : List Byte) (s : State) (hb : s.opState = .busy) (hfit : out.length ≤ Config.obufCap)
    (h : Inv s) : Inv (finishOk out s) where
  ibufWf := h.ibufWf
  ibufRange := h.ibufRange
  obufHolds := ⟨out, rfl, hfit, fun _ _ => olen_toNat _ hfit⟩
  obufOnlyResult _ := ⟨rfl, rfl⟩
  errNoOutput _ he := absurd rfl he
  faultCause := by simp [inv_fcause_none s h (by simp [hb])]
  idleClean hi := nomatch hi

theorem inv_finishErr (k : ErrKind) (s : State) (hb : s.opState = .busy) (h : Inv s) : Inv (finishErr k s) where
  ibufWf := h.ibufWf
  ibufRange := h.ibufRange
  obufHolds := ⟨[], rfl, Nat.zero_le _, fun _ he => nomatch he⟩
  obufOnlyResult hne := absurd rfl hne
  errNoOutput _ _ := rfl
  faultCause := by simp [inv_fcause_none s h (by simp [hb])]
  idleClean hi := nomatch hi

theorem inv_takeFault (c : Cause) (s : State) (h : Inv s) : Inv (takeFault c s) where
  ibufWf := h.ibufWf
  ibufRange := h.ibufRange
  obufHolds := ⟨[], rfl, Nat.zero_le _, fun hd => nomatch hd⟩
  obufOnlyResult hne := absurd rfl hne
  errNoOutput hd := nomatch hd
  faultCause := by simp
  idleClean hi := nomatch hi

/-- Reset makes the invariant true from any state. -/
theorem inv_resetBlock (s : State) : Inv (resetBlock s) where
  ibufWf := rfl
  ibufRange _ hc := nomatch hc
  obufHolds := ⟨[], rfl, Nat.zero_le _, fun hd => nomatch hd⟩
  obufOnlyResult hne := absurd rfl hne
  errNoOutput hd := nomatch hd
  faultCause := by simp
  idleClean _ := ⟨rfl, rfl, rfl⟩

/-- The completion of a command in flight; its result fits OBUF (`result_fits`). -/
theorem inv_complete_outcome (i : Instr) (s : State) (hb : s.opState = .busy) (h : Inv s) :
    Inv (complete (outcomeOf (resultOf i) s) s) := by
  cases hr : outcomeOf (resultOf i) s with
  | ok out => exact inv_finishOk out s hb (result_fits i s out hr) h
  | err k => exact inv_finishErr k s hb h
  | fault c => exact inv_takeFault c s h

theorem inv_hostAct (act : HostAction) (s : State) (h : Inv s) : Inv (hostAct act s) := by
  rcases hostAct_cases act s with
    e | ⟨v, e⟩ | ⟨v, e⟩ | ⟨i, b, -, -, hi, e⟩ | ⟨v, -, -, e⟩ | ⟨w, -, ha, e⟩ <;> rw [e]
  · exact h
  · exact inv_giveAnswer v s h
  · exact inv_drawAnswer v s h
  · exact inv_putIbuf i b s hi h
  · exact inv_setIlen v s h
  · exact inv_acceptCmd w s ha h

theorem inv_engineTurn (s t : State) (h : Inv s) (ht : engineTurn s = .next t) : Inv t := by
  rcases engineTurn_cases s with ⟨-, e⟩ | ⟨hb, i, -, e⟩ | ⟨-, -, e⟩ <;> cases e.symm.trans ht
  · exact h
  · exact inv_complete_outcome i s hb h
  · exact inv_takeFault .illegalCmd s h

/-- Settles O44, by the move the step takes up. -/
theorem stepKeepsInvariant : Obligations.StepKeepsInvariant := by
  intro s t h ht
  have hp := inv_popMove s h
  rcases step_cases s t ht with ⟨act, -, rfl⟩ | ⟨-, he⟩ | ⟨-, rfl⟩
  · exact inv_hostAct act (popMove s) hp
  · exact inv_engineTurn (popMove s) t hp he
  · exact inv_resetBlock (popMove s)

end Sys2Proof.Machine
end

section
/-! PROOFS. The family 20_memory.md: the host's writes and reads, each said once, the step that makes a scheduled move,
and the operands held while a command is in flight. -/

namespace Sys2Proof.Machine

/-! ### What the block drops (20_memory.md R54, R56; 70_reset_and_hazards.md R194) -/

/-- The block drops host writes exactly in BUSY and FAULT. -/
theorem not_accepts_iff (s : State) : ¬ accepts s = true ↔ s.opState = .busy ∨ s.opState = .fault := by
  rw [accepts_iff]
  cases s.opState <;> simp

/-- Where the block does not accept, a host action leaves at most the record of a read. -/
theorem hostAct_of_not_accepts (act : HostAction) (s : State) (h : ¬ accepts s = true) :
    hostAct act s = s ∨ (∃ v, hostAct act s = giveAnswer v s) ∨ (∃ v, hostAct act s = drawAnswer v s) := by
  rcases hostAct_cases act s with e | e | e | ⟨_, _, -, ha, -, -⟩ | ⟨_, -, ha, -⟩ | ⟨_, -, ha, -⟩
  · exact .inl e
  · exact .inr (.inl e)
  · exact .inr (.inr e)
  all_goals exact absurd ha h

/-! ### HostWriteIBUF (20_memory.md R54) -/

theorem hostAct_writeIbuf_accepted (i : Nat) (b : Byte) (s : State) (ha : accepts s = true) (hi : i < Config.ibufCap) :
    hostAct (.writeIbuf i b) s = putIbuf i b s := if_pos ⟨ha, hi⟩

theorem hostAct_writeIbuf_dropped (i : Nat) (b : Byte) (s : State) (h : ¬ (accepts s = true ∧ i < Config.ibufCap)) :
    hostAct (.writeIbuf i b) s = s := if_neg h

/-- A written byte of IBUF hides the unspecified one; the other indices read as before. -/
theorem ibufByte_putIbuf (i j : Nat) (b : Byte) (s : State) :
    ibufByte (putIbuf i b s) j = if j = i then b else ibufByte s j := by
  simp only [ibufByte, putIbuf_ibuf, putIbuf_epoch, memory_find_write]
  by_cases h : j = i
  · rw [if_pos h, if_pos h, Option.getD_some]
  · rw [if_neg h, if_neg h]

/-- Settles O34: the accepted write is `putIbuf`, and each condition of the second clause refutes its guard. -/
theorem hostWriteIbufEffect : Obligations.HostWriteIbufEffect := by
  refine fun i b s => ⟨fun ha hi => ?_, fun hdrop => ?_⟩
  · exact ⟨s.ibuf.write i b, hostAct_writeIbuf_accepted i b s ((accepts_iff s).2 ha) hi,
      fun j => ibufByte_putIbuf i j b s⟩
  · refine hostAct_writeIbuf_dropped i b s fun ⟨ha, hi⟩ => ?_
    rcases or_assoc.2 hdrop with hs | hcap
    · exact (not_accepts_iff s).2 hs ha
    · exact absurd hi (Nat.not_lt.2 hcap)

/-! ### HostWriteReg (20_memory.md R56; 30_encoding.md R76) -/

theorem hostAct_writeCmd_accepted (w : Word) (s : State) (ha : accepts s = true) :
    hostAct (.writeReg 0 w) s = acceptCmd w s := if_pos ha

theorem hostAct_writeCmd_dropped (w : Word) (s : State) (h : ¬ accepts s = true) :
    hostAct (.writeReg 0 w) s = s := if_neg h

theorem hostAct_writeIlen_accepted (v : Word) (s : State) (ha : accepts s = true) :
    hostAct (.writeReg 2 v) s = setIlen v s := if_pos ha

theorem hostAct_writeIlen_dropped (v : Word) (s : State) (h : ¬ accepts s = true) :
    hostAct (.writeReg 2 v) s = s := if_neg h

/-- STATUS, OLEN and the registers that do not exist take no write (20_memory.md R56, R57). -/
theorem hostAct_writeReg_other (r : Nat) (v : Word) (s : State) (h0 : r ≠ 0) (h2 : r ≠ 2) :
    hostAct (.writeReg r v) s = s := by
  match r with
  | 0 => exact absurd rfl h0
  | 1 => rfl
  | 2 => exact absurd rfl h2
  | _ + 3 => rfl

/-- Settles O35, register by register. -/
theorem hostWriteRegEffect : Obligations.HostWriteRegEffect := by
  refine fun r v s => ⟨fun ha => ?_, fun hn => ?_, fun ha => ?_, fun hn => ?_, fun hr => ?_⟩
  · exact hostAct_writeCmd_accepted v s ((accepts_iff s).2 ha)
  · exact hostAct_writeCmd_dropped v s ((not_accepts_iff s).2 hn)
  · exact hostAct_writeIlen_accepted v s ((accepts_iff s).2 ha)
  · exact hostAct_writeIlen_dropped v s ((not_accepts_iff s).2 hn)
  · exact hostAct_writeReg_other r v s (by omega) (by omega)

/-! ### HostReadIBUF and HostReadOBUF (20_memory.md R55) -/

/-- A byte the host may rely on is the answer. -/
theorem answerByte_some (b : Byte) (s : State) : answerByte (some b) s = giveAnswer (.byte b) s := rfl

/-- Where the host may rely on nothing, some byte is the answer (assumption 4). -/
theorem answerByte_none (s : State) :
    answerByte none s = drawAnswer (.byte (Config.unspecifiedByte s.fresh)) s := rfl

theorem hostAct_readIbuf_inside (i : Nat) (s : State) (hi : i < Config.ibufCap) :
    hostAct (.readIbuf i) s = giveAnswer (.byte (ibufByte s i)) s := by
  rw [hostAct, hostReadIbuf, ibufValue, if_pos hi, answerByte_some]

theorem hostAct_readIbuf_outside (i : Nat) (s : State) (hi : Config.ibufCap ≤ i) :
    hostAct (.readIbuf i) s = drawAnswer (.byte (Config.unspecifiedByte s.fresh)) s := by
  rw [hostAct, hostReadIbuf, ibufValue, if_neg (Nat.not_lt.2 hi), answerByte_none]

/-- A byte of a valid result is read exactly. -/
theorem hostAct_readObuf_result (i : Nat) (b : Byte) (s : State) (hd : s.opState = .done) (he : s.err = .ok)
    (hi : i < s.olen.toNat) (hcap : i < Config.obufCap) (hb : s.obuf.find i = some b) :
    hostAct (.readObuf i) s = giveAnswer (.byte b) s := by
  rw [hostAct, hostReadObuf, obufValue, if_pos ⟨hd, he, hi, hcap⟩, hb, answerByte_some]

theorem hostAct_readObuf_unspecified (i : Nat) (s : State)
    (h : ¬ (s.opState = .done ∧ s.err = .ok ∧ i < s.olen.toNat ∧ i < Config.obufCap)) :
    hostAct (.readObuf i) s = drawAnswer (.byte (Config.unspecifiedByte s.fresh)) s := by
  rw [hostAct, hostReadObuf, obufValue, if_neg h, answerByte_none]

/-- Settles O37, by the two cases of each buffer. -/
theorem hostReadBufferValues : Obligations.HostReadBufferValues := by
  refine fun i s => ⟨fun hi => ?_, fun hi => ?_, fun hd he hi hcap b hb => ?_, fun hun => ?_⟩
  · exact hostAct_readIbuf_inside i s hi
  · exact ⟨_, hostAct_readIbuf_outside i s hi⟩
  · exact hostAct_readObuf_result i b s hd he hi hcap hb
  · refine ⟨_, hostAct_readObuf_unspecified i s fun ⟨hd, he, hi, hcap⟩ => ?_⟩
    rcases hun with h | h | h | h
    · exact h hd
    · exact h he
    · exact absurd hi (Nat.not_lt.2 h)
    · exact absurd hcap (Nat.not_lt.2 h)

/-- Settles O41: by the invariant OBUF holds a sequence from index 0 whose length is OLEN and at most OBUF_CAP. -/
theorem resultBytesAreReadable : Obligations.ResultBytesAreReadable := by
  intro s i hinv hd he hi
  obtain ⟨out, hout, hfit, hlen⟩ := hinv.obufHolds
  have hlt : i < out.length := hlen hd he ▸ hi
  have hfind : s.obuf.find i = some out[i] := by
    rw [hout, memory_find_holding_zero, List.getElem?_eq_getElem hlt]
  exact ⟨out[i], hfind, hostAct_readObuf_result i out[i] s hd he hi (Nat.lt_of_lt_of_le hlt hfit) hfind⟩

/-! ### HostReadReg (20_memory.md R57, R58) -/

theorem hostAct_readCmd (s : State) : hostAct (.readReg 0) s = giveAnswer (.word s.cmd) s := rfl

theorem hostAct_readStatus (s : State) : hostAct (.readReg 1) s = giveAnswer (.word (statusWord s)) s := rfl

theorem hostAct_readIlen (s : State) : hostAct (.readReg 2) s = giveAnswer (.word s.ilen) s := rfl

theorem regValue_olen_of_accepts (s : State) (ha : accepts s = true) : regValue s 3 = some s.olen := if_pos ha

theorem regValue_olen_of_not_accepts (s : State) (h : ¬ accepts s = true) : regValue s 3 = none := if_neg h

/-- The registers 4 and up do not exist. -/
theorem regValue_beyond (s : State) (r : Nat) (h : 4 ≤ r) : regValue s r = none := by
  obtain ⟨k, rfl⟩ := Nat.exists_eq_add_of_le' h
  rfl

theorem hostAct_readReg_of_some (r : Nat) (w : Word) (s : State) (h : regValue s r = some w) :
    hostAct (.readReg r) s = giveAnswer (.word w) s := by
  rw [hostAct, hostReadReg, h, answerWord]

theorem hostAct_readReg_of_none (r : Nat) (s : State) (h : regValue s r = none) :
    hostAct (.readReg r) s = drawAnswer (.word (Config.unspecifiedWord s.fresh)) s := by
  rw [hostAct, hostReadReg, h, answerWord]

/-- Settles O38, register by register. -/
theorem hostReadRegValues : Obligations.HostReadRegValues := by
  refine fun r s => ⟨hostAct_readCmd s, hostAct_readStatus s, statusWord_reserved s, hostAct_readIlen s,
    fun ha => ?_, fun hun => ⟨_, hostAct_readReg_of_none r s ?_⟩⟩
  · exact hostAct_readReg_of_some 3 s.olen s (regValue_olen_of_accepts s ((accepts_iff s).2 ha))
  · rcases hun with ⟨hs, rfl⟩ | hr
    · exact regValue_olen_of_not_accepts s ((not_accepts_iff s).2 hs)
    · exact regValue_beyond s r hr

/-! ### Scheduled moves (20_memory.md R60, R61) -/

/-- A step makes the first move of the schedule, on the state with that move taken off. -/
theorem step_of_schedule_cons (s : State) (m : Move) (rest : List Move) (h : s.schedule = m :: rest) :
    step s = takeMove m { s with schedule := rest } := by
  have hm : nextMove s = m := by rw [nextMove, h]
  have hp : popMove s = { s with schedule := rest } := by rw [popMove, h, List.tail_cons]
  rw [step, hm, hp]

/-- Settles O9: `takeMove` of a host action and of a reset. -/
theorem stepMakesHostActionOrReset : Obligations.StepMakesHostActionOrReset :=
  fun s rest => ⟨fun act h => step_of_schedule_cons s (.host act) rest h, step_of_schedule_cons s .reset rest⟩

/-! ### The operands of a command in flight (20_memory.md R59, R61 (a), (b); 70_reset_and_hazards.md R194) -/

/-- Two states give a command in flight the same operands: CMD, ILEN and the contents of IBUF. -/
def SameOperands (t s : State) : Prop :=
  t.cmd = s.cmd ∧ t.ilen = s.ilen ∧ t.ibuf = s.ibuf ∧ t.epoch = s.epoch

/-- No host action changes STATE or the operands where the block does not accept. -/
theorem hostAct_keeps_of_not_accepts (act : HostAction) (s : State) (h : ¬ accepts s = true) :
    SameOperands (hostAct act s) s ∧ (hostAct act s).opState = s.opState := by
  rcases hostAct_of_not_accepts act s h with e | ⟨v, e⟩ | ⟨v, e⟩ <;> rw [e] <;> exact ⟨⟨rfl, rfl, rfl, rfl⟩, rfl⟩

/-- The engine only reads the operands. -/
theorem engineTurn_sameOperands (s t : State) (h : engineTurn s = .next t) : SameOperands t s := by
  rcases engineTurn_cases s with ⟨-, e⟩ | ⟨-, i, -, e⟩ | ⟨-, -, e⟩ <;> cases e.symm.trans h
  · exact ⟨rfl, rfl, rfl, rfl⟩
  · obtain ⟨hcmd, hilen, hibuf, hepoch, -⟩ := complete_keeps (outcomeOf (resultOf i) s) s
    exact ⟨hcmd, hilen, hibuf, hepoch⟩
  · exact ⟨rfl, rfl, rfl, rfl⟩

/-- Settles O47, by the move the step takes up: the host's are dropped or reads, the engine's writes no operand. -/
theorem operandsHeldWhileBusy : Obligations.OperandsHeldWhileBusy := by
  intro s t hb hr ht
  rcases step_cases s t ht with ⟨act, -, rfl⟩ | ⟨hm, he⟩ | ⟨hm, -⟩
  · have hna : ¬ accepts (popMove s) = true := (not_accepts_iff _).2 (.inl hb)
    obtain ⟨⟨hcmd, hilen, hibuf, hepoch⟩, hop⟩ := hostAct_keeps_of_not_accepts act (popMove s) hna
    exact ⟨hcmd, hilen, hibuf, hepoch, fun _ => hop.trans hb⟩
  · obtain ⟨hcmd, hilen, hibuf, hepoch⟩ := engineTurn_sameOperands (popMove s) t he
    exact ⟨hcmd, hilen, hibuf, hepoch, fun hne => absurd hm hne⟩
  · exact absurd hm hr

end Sys2Proof.Machine
end

section
/-! PROOFS. The family 30_encoding.md: the command word and its decoder, the completion step that runs it, and the
relation of the 103-bit commands to the fixed-bit-width ones. -/

namespace Sys2Proof

/-! ### The command word (30_encoding.md R70 to R75) -/

/-- Laws/PerInstr.lean for all commands: an encoding's fields are the command's own. -/
theorem encode_fields (i : Instr) : Laws.EncodedFields.Statement i := by
  cases i with
  | enc a => exact Laws.EncodedFields.enc a
  | dec a => exact Laws.EncodedFields.dec a
  | encb a bits => exact Laws.EncodedFields.encb a bits
  | decb a bits => exact Laws.EncodedFields.decb a bits
  | enc103 a => exact Laws.EncodedFields.enc103 a
  | dec103 a => exact Laws.EncodedFields.dec103 a

/-- The decoder, said once: a word decodes to a command exactly when RSV is zero and its other fields are the
command's. -/
theorem decode_ok_iff (w : Word) (i : Instr) :
    decode w = .ok i ↔
      rsvField w = 0 ∧ opField w = i.op ∧ alphaField w = i.alphabet ∧ bitsField w = i.bitsValue := by
  constructor
  · intro h
    obtain ⟨hrsv, hi⟩ := decode_ok_cases w i h
    refine ⟨hrsv, ?_⟩
    rcases hi with ⟨hop, hbits, rfl⟩ | ⟨hop, hbits, rfl⟩ | ⟨hop, rfl⟩ | ⟨hop, rfl⟩ | ⟨hop, hbits, rfl⟩ | ⟨hop, hbits, rfl⟩
    case inr.inr.inl | inr.inr.inr.inl => exact ⟨hop, rfl, rfl⟩
    all_goals exact ⟨hop, rfl, hbits⟩
  · rintro ⟨hrsv, hop, halpha, hbits⟩
    rw [decode_of_rsv_zero w hrsv, hop, halpha, hbits]
    cases i with
    | encb a bits | decb a bits => rfl
    | enc a | dec a | enc103 a | dec103 a => exact (withoutBits_ok w _ _).2 ⟨hbits, rfl⟩

/-- Settles O1: the fields of the encoding are those the decoder asks for. -/
theorem decodeOfEncode : Obligations.DecodeOfEncode :=
  fun i hwf => (decode_ok_iff _ i).2 (encode_fields i hwf)

/-- A command is well formed when the field BITS can hold its bit count (30_encoding.md R73). -/
theorem wellFormed_iff (i : Instr) : i.wellFormed = true ↔ i.bitsValue < 256 := by
  cases i <;> simp [Instr.wellFormed, Instr.bitsValue]

/-- Settles O2: the word and the encoding are the same number made of the same fields. -/
theorem encodeOfDecode : Obligations.EncodeOfDecode := by
  intro w i h
  obtain ⟨hrsv, hop, halpha, hbits⟩ := (decode_ok_iff w i).1 h
  have hwf : i.wellFormed = true := (wellFormed_iff i).2 (hbits ▸ bitsField_lt w)
  refine ⟨hwf, BitVec.eq_of_toNat_eq ?_⟩
  rw [encode_toNat i hwf, word_of_fields w, hrsv, hop, halpha, hbits]
  omega

/-- The reserved encodings, in the numbers of the fields (30_encoding.md R74). -/
theorem reservedWord_iff (w : Word) :
    ReservedWord w ↔ rsvField w ≠ 0 ∨ (opField w = 0 ∨ opField w = 7) ∨
      ((opField w = 1 ∨ opField w = 2 ∨ opField w = 5 ∨ opField w = 6) ∧ bitsField w ≠ 0) := by
  simp only [ReservedWord, rsvField_eq, opField_eq, bitsField_eq, ne_eq, ← BitVec.toNat_inj]
  rfl

/-- A legal word names a command: the one of its OP. -/
theorem exists_decode_ok_iff (w : Word) :
    (∃ i, decode w = .ok i) ↔ rsvField w = 0 ∧ ((opField w = 3 ∨ opField w = 4) ∨
      ((opField w = 1 ∨ opField w = 2 ∨ opField w = 5 ∨ opField w = 6) ∧ bitsField w = 0)) := by
  simp only [decode_ok_iff]
  constructor
  · rintro ⟨i, hrsv, hop, -, hbits⟩
    refine ⟨hrsv, ?_⟩
    rw [hop, hbits]
    cases i <;> simp [Instr.op, Instr.bitsValue]
  · rintro ⟨hrsv, (hop | hop) | ⟨hop | hop | hop | hop, hbits⟩⟩
    · exact ⟨.encb (alphaField w) (bitsField w), hrsv, hop, rfl, rfl⟩
    · exact ⟨.decb (alphaField w) (bitsField w), hrsv, hop, rfl, rfl⟩
    · exact ⟨.enc (alphaField w), hrsv, hop, rfl, hbits⟩
    · exact ⟨.dec (alphaField w), hrsv, hop, rfl, hbits⟩
    · exact ⟨.enc103 (alphaField w), hrsv, hop, rfl, hbits⟩
    · exact ⟨.dec103 (alphaField w), hrsv, hop, rfl, hbits⟩

/-- The decoder answers a command or a reason, never both. -/
theorem exists_decode_error_iff (w : Word) : (∃ r, decode w = .error r) ↔ ¬ ∃ i, decode w = .ok i := by
  cases decode w <;> simp

/-- Settles O3: the three conditions of R74 leave exactly the legal words, OP having three bits. -/
theorem decoderRefusesExactlyReserved : Obligations.DecoderRefusesExactlyReserved := by
  intro w
  have hop := opField_lt w
  rw [exists_decode_error_iff, exists_decode_ok_iff, reservedWord_iff]
  omega

/-- Settles O5: the decoder, run on the twelve words. -/
theorem exampleWordsDecode : Obligations.ExampleWordsDecode := by
  unfold Obligations.ExampleWordsDecode
  decide

/-! ### Counting the legal words (30_encoding.md R74) -/

/-- The bit count a command takes: ENCB and DECB only (30_encoding.md R73). -/
def Instr.bitCount : Instr → Option Nat
  | .enc _ | .dec _ | .enc103 _ | .dec103 _ => none
  | .encb _ bits | .decb _ bits => some bits

/-- The commands of one alphabet whose bit count, if they take one, is in the list. -/
def commandsOf (counts : List Nat) (a : Alphabet) : List Instr :=
  [.enc a, .dec a, .enc103 a, .dec103 a] ++ (counts.map (.encb a) ++ counts.map (.decb a))

/-- The commands of both alphabets whose bit count, if they take one, is in the list. -/
def commandsWith (counts : List Nat) : List Instr := commandsOf counts .alpha43 ++ commandsOf counts .alpha44

theorem mem_commandsOf (counts : List Nat) (a : Alphabet) (i : Instr) :
    i ∈ commandsOf counts a ↔ i.alphabet = a ∧ ∀ b, i.bitCount = some b → b ∈ counts := by
  cases i <;> simp [commandsOf, Instr.alphabet, Instr.bitCount, eq_comm, and_comm]

theorem mem_commandsWith (counts : List Nat) (i : Instr) :
    i ∈ commandsWith counts ↔ ∀ b, i.bitCount = some b → b ∈ counts := by
  rw [commandsWith, List.mem_append, mem_commandsOf, mem_commandsOf]
  cases i.alphabet <;> simp

theorem commandsWith_length (counts : List Nat) : (commandsWith counts).length = 8 + 4 * counts.length := by
  simp only [commandsWith, commandsOf, List.length_append, List.length_map, List.length_cons, List.length_nil]
  omega

theorem commandsOf_nodup (counts : List Nat) (a : Alphabet) (h : counts.Nodup) : (commandsOf counts a).Nodup := by
  have hencb : (counts.map (Instr.encb a)).Nodup := h.map fun b c e => (Instr.encb.inj e).2
  have hdecb : (counts.map (Instr.decb a)).Nodup := h.map fun b c e => (Instr.decb.inj e).2
  simp [commandsOf, List.nodup_append, hencb, hdecb]

/-- No command is listed twice: the two halves differ in the alphabet. -/
theorem commandsWith_nodup (counts : List Nat) (h : counts.Nodup) : (commandsWith counts).Nodup := by
  refine (commandsOf_nodup counts _ h).append (commandsOf_nodup counts _ h) fun i h43 h44 => ?_
  have e43 := ((mem_commandsOf _ _ _).1 h43).1
  have e44 := ((mem_commandsOf _ _ _).1 h44).1
  exact nomatch e43.symm.trans e44

theorem wellFormed_iff_bitCount (i : Instr) : i.wellFormed = true ↔ ∀ b, i.bitCount = some b → b < 256 := by
  cases i <;> simp [Instr.wellFormed, Instr.bitCount]

/-- The words of the commands with given legal bit counts: none twice, and each decodes to its command. -/
theorem commandWords (counts : List Nat) (hnodup : counts.Nodup) (hlt : ∀ b ∈ counts, b < 256) :
    ((commandsWith counts).map encode).Nodup ∧
    ((commandsWith counts).map encode).length = 8 + 4 * counts.length ∧
    ∀ w, w ∈ (commandsWith counts).map encode ↔
      ∃ i, decode w = .ok i ∧ ∀ b, i.bitCount = some b → b ∈ counts := by
  have hdec : ∀ i ∈ commandsWith counts, decode (encode i) = .ok i := fun i hi =>
    decodeOfEncode i ((wellFormed_iff_bitCount i).2 fun b hb => hlt b ((mem_commandsWith counts i).1 hi b hb))
  refine ⟨(commandsWith_nodup counts hnodup).map_on fun i hi j hj e => ?_, ?_, fun w => ?_⟩
  · exact Except.ok.inj ((hdec i hi).symm.trans ((congrArg decode e).trans (hdec j hj)))
  · rw [List.length_map, commandsWith_length]
  · rw [List.mem_map]
    constructor
    · rintro ⟨i, hi, rfl⟩
      exact ⟨i, hdec i hi, (mem_commandsWith counts i).1 hi⟩
    · rintro ⟨i, hw, hi⟩
      exact ⟨i, (mem_commandsWith counts i).2 hi, (encodeOfDecode w i hw).2⟩

end Sys2Proof

namespace Sys2Proof.Machine

/-! ### The fault BAD_BITS (60_exceptions.md R165) -/

/-- BAD_BITS is the answer to a bit count outside 1 to 128 and to nothing else, whatever the input. -/
theorem resultOf_badBits_iff (i : Instr) (input : List Byte) :
    resultOf i input = .fault .badBits ↔ ∃ b, i.bitCount = some b ∧ badBitCount b = true := by
  cases i with
  | enc a => simp [resultOf, encResult, Instr.bitCount]
  | dec a =>
    simp only [resultOf, decResult, Instr.bitCount]
    split <;> simp
  | encb a bits =>
    simp only [resultOf, encbResult, Instr.bitCount]
    split_ifs with hb <;> simp [hb]
  | decb a bits =>
    simp only [resultOf, decbResult, Instr.bitCount]
    split_ifs with hb
    · simp [hb]
    · split
      · simp [hb]
      · split_ifs <;> simp [hb]
  | enc103 a =>
    simp only [resultOf, enc103Result, Instr.bitCount]
    split_ifs <;> simp
  | dec103 a =>
    simp only [resultOf, dec103Result, Instr.bitCount]
    split_ifs
    · simp
    · split
      · simp
      · split_ifs <;> simp

/-- From a state without a cause, a completion leaves a cause exactly when its outcome is that fault. -/
theorem complete_fcause_iff (r : Result) (s : State) (c : Cause) (h : s.fcause = .none) :
    (complete r s).fcause = .cause c ↔ r = .fault c := by
  cases r <;> simp [h]

/-- A command can leave BAD_BITS exactly when it takes a bit count and that is outside 1 to 128: it then does so on
the empty input. -/
theorem exec_never_badBits_iff (i : Instr) :
    (∀ s t : State, s.fcause = .none → exec i s = .next t → t.fcause ≠ .cause .badBits) ↔
      ∀ b, i.bitCount = some b → badBitCount b = false := by
  constructor
  · intro h b hb
    by_contra hbad
    have hres : outcomeOf (resultOf i) State.reset = .fault .badBits :=
      (outcomeOf_of_le _ _ (Nat.zero_le _)).trans
        ((resultOf_badBits_iff i _).2 ⟨b, hb, Bool.eq_true_of_not_eq_false hbad⟩)
    exact h State.reset _ rfl (exec_eq i _) ((complete_fcause_iff _ State.reset _ rfl).2 hres)
  · intro h s t hs ht hc
    cases (exec_eq i s).symm.trans ht
    have hres := (complete_fcause_iff _ s _ hs).1 hc
    by_cases hlen : Config.ibufCap < s.ilen.toNat
    · rw [outcomeOf_of_lt _ _ hlen] at hres
      cases hres
    · rw [outcomeOf_of_le _ _ (Nat.not_lt.1 hlen)] at hres
      obtain ⟨b, hb, hbad⟩ := (resultOf_badBits_iff i _).1 hres
      exact Bool.false_ne_true ((h b hb).symm.trans hbad)

/-- Settles O4: the legal words are those of the bit counts 0 to 255, the others those of 1 to 128. -/
theorem legalWordCounts : Obligations.LegalWordCounts := by
  constructor
  · obtain ⟨hnodup, hlen, hmem⟩ := commandWords (List.range 256) List.nodup_range (by simp)
    refine ⟨_, hnodup, by rw [hlen, List.length_range], fun w => (hmem w).trans (exists_congr fun i => ?_)⟩
    refine and_iff_left_of_imp fun hw b hb => List.mem_range.2 ?_
    exact (wellFormed_iff_bitCount i).1 (encodeOfDecode w i hw).1 b hb
  · obtain ⟨hnodup, hlen, hmem⟩ := commandWords (List.range' 1 128) List.nodup_range' (by simp; omega)
    refine ⟨_, hnodup, by rw [hlen, List.length_range'], fun w => (hmem w).trans (exists_congr fun i => ?_)⟩
    rw [exec_never_badBits_iff]
    have hcount : ∀ b, b ∈ List.range' 1 128 ↔ badBitCount b = false := by
      intro b
      simp [badBitCount]
      omega
    simp only [hcount]

/-! ### The completion step (30_encoding.md R77; 60_exceptions.md section 3) -/

/-- In BUSY the engine's turn completes the command in CMD. -/
theorem step_busy (s : State) (hb : s.opState = .busy) (ht : s.schedule = [] ∨ s.schedule.head? = some .engine) :
    step s = completeCommand (popMove s) := by
  rw [step_engine s ht, engineTurn, popMove_opState, hb]

theorem completeCommand_ok (s : State) (i : Instr) (h : decode s.cmd = .ok i) : completeCommand s = exec i s := by
  rw [completeCommand, h]

theorem completeCommand_reserved (s : State) (h : ReservedWord s.cmd) :
    completeCommand s = .next (takeFault .illegalCmd s) := by
  obtain ⟨r, hr⟩ := (decoderRefusesExactlyReserved s.cmd).2 h
  rw [completeCommand, hr]

/-- Settles O6: `popMove` is the move taken off the schedule. -/
theorem stepRunsDecodedCommand : Obligations.StepRunsDecodedCommand :=
  fun s i hb ht hi => (step_busy s hb ht).trans (completeCommand_ok (popMove s) i hi)

/-- Settles O7: `withFault` is what `takeFault` leaves. -/
theorem reservedWordFaults : Obligations.ReservedWordFaults :=
  fun s hb ht hr => (step_busy s hb ht).trans (completeCommand_reserved (popMove s) hr)

/-- A word decodes to a command or is a reserved encoding. -/
theorem decode_ok_or_reserved (w : Word) : (∃ i, decode w = .ok i) ∨ ReservedWord w := by
  rw [← decoderRefusesExactlyReserved w, exists_decode_error_iff]
  exact em _

/-- An input that fits IBUF is the whole of the bytes `Exec` is given. -/
theorem commandInput_of_le (s : State) (h : s.ilen.toNat ≤ Config.ibufCap) : commandInput s = inputBytes s := by
  rw [commandInput, Nat.min_eq_left h, inputBytes]

theorem specExec_reserved (w : Word) (len : Nat) (input : List Byte) (h : ReservedWord w) :
    specExec w len input = .fault .illegalCmd := if_pos h

/-- `Exec` of a legal word, from the raw fields, is the length check and then the function of the decoded command. -/
theorem specExec_of_decode (w : Word) (i : Instr) (len : Nat) (input : List Byte) (h : decode w = .ok i) :
    specExec w len input = if Config.ibufCap < len then .fault .badLen else resultOf i input := by
  have hlegal : ¬ ReservedWord w := by
    rw [← decoderRefusesExactlyReserved w, exists_decode_error_iff, not_not]
    exact ⟨i, h⟩
  obtain ⟨-, hop, halpha, hbits⟩ := (decode_ok_iff w i).1 h
  simp only [specExec, if_neg hlegal, ← opField_eq, ← alphaField_eq, ← bitsField_eq, hop, halpha, hbits]
  cases i <;> rfl

/-- `Exec` on the input of a state is the outcome of the decoded command there. -/
theorem specExec_eq_outcomeOf (s : State) (i : Instr) (h : decode s.cmd = .ok i) :
    specExec s.cmd s.ilen.toNat (commandInput s) = outcomeOf (resultOf i) s := by
  rw [specExec_of_decode s.cmd i _ _ h, outcomeOf]
  split_ifs with hlen
  · rfl
  · rw [commandInput_of_le s (Nat.not_lt.1 hlen)]

/-- The completion step writes the outcome of `Exec`. -/
theorem completeCommand_eq_specExec (s : State) :
    completeCommand s = .next (complete (specExec s.cmd s.ilen.toNat (commandInput s)) s) := by
  rcases decode_ok_or_reserved s.cmd with ⟨i, hi⟩ | hr
  · rw [completeCommand_ok s i hi, exec_eq, specExec_eq_outcomeOf s i hi]
  · rw [completeCommand_reserved s hr, specExec_reserved _ _ _ hr, complete_fault]

/-- A result of `Exec` fits OBUF, so that OLEN counts it (assumption 5). -/
theorem specExec_ok_fits (s : State) (out : List Byte)
    (h : specExec s.cmd s.ilen.toNat (commandInput s) = .ok out) : out.length ≤ Config.obufCap := by
  rcases decode_ok_or_reserved s.cmd with ⟨i, hi⟩ | hr
  · exact result_fits i s out ((specExec_eq_outcomeOf s i hi).symm.trans h)
  · rw [specExec_reserved _ _ _ hr] at h
    cases h

/-- Settles O10, by the outcome of `Exec`. -/
theorem completionStepIsExec : Obligations.CompletionStepIsExec := by
  intro s hb ht
  have hstep : step s = .next (complete (specExec s.cmd s.ilen.toNat (commandInput s)) (popMove s)) :=
    (step_busy s hb ht).trans (completeCommand_eq_specExec (popMove s))
  split <;> rename_i hr <;> rw [hr] at hstep
  · exact ⟨_, olen_toNat _ (specExec_ok_fits s _ hr), hstep⟩
  · exact hstep
  · exact hstep

/-! ### The 103-bit commands beside the fixed-bit-width ones (30_encoding.md R79) -/

/-- On 13 bytes the length checks of both pass, and 19 digits are DIGITS(N, 103). -/
theorem enc103Result_eq_encbResult (T : Config.Tables) (a : Alphabet) (input : List Byte) (h : input.length = 13) :
    enc103Result T a input = encbResult T a 103 input := by
  simp [enc103Result, encbResult, h, badBitCount, digitCount_103]

/-- On 19 characters the length check passes, and the residual check repeats the range check (43_fixed103.md R153). -/
theorem dec103Result_eq_decbResult (T : Config.Tables) (a : Alphabet) (input : List Byte) (h : input.length = 19) :
    dec103Result T a input = decbResult T a 103 input := by
  simp only [dec103Result, decbResult, h, badBitCount]
  cases accumulate T a 0 input with
  | error k => rfl
  | ok v =>
    by_cases hv : 2 ^ 103 ≤ v
    · have hrange : 103 < 128 ∧ 2 ^ 103 ≤ v := ⟨by omega, hv⟩
      exact (if_pos hv).trans (if_pos hrange).symm
    · have hrange : ¬ (103 < 128 ∧ 2 ^ 103 ≤ v) := fun hr => hv hr.2
      have hres : ¬ v / 2 ^ 104 ≠ 0 := not_not.2 (Nat.div_eq_of_lt (by omega))
      exact ((if_neg hv).trans (if_neg hres)).trans (if_neg hrange).symm

/-- Two commands with one function of the input at hand complete alike. -/
theorem exec_congr (i j : Instr) (s : State) (h : resultOf i (inputBytes s) = resultOf j (inputBytes s)) :
    exec i s = exec j s := by
  rw [exec_eq, exec_eq, outcomeOf, outcomeOf, h]

/-- Settles O28: ILEN is the length of the input both functions are given. -/
theorem fixed103IsFixedWidthAt103 : Obligations.Fixed103IsFixedWidthAt103 := by
  refine fun a s => ⟨fun h => exec_congr _ _ s ?_, fun h => exec_congr _ _ s ?_⟩
  · exact enc103Result_eq_encbResult romTables a _ ((inputBytes_length s).trans h)
  · exact dec103Result_eq_decbResult romTables a _ ((inputBytes_length s).trans h)

/-! ### ILEN above IBUF_CAP, and the command issue (30_encoding.md R77 step 2, R76) -/

/-- Settles O29: the length check comes before every command's own function. -/
theorem oversizedInputFaults : Obligations.OversizedInputFaults := by
  intro i s h
  rw [exec_eq, outcomeOf_of_lt _ _ h, complete_fault]
  rfl

/-- Settles O36: `acceptCmd` where the block accepts, nothing where it does not. -/
theorem commandIssue : Obligations.CommandIssue :=
  fun w s => ⟨fun h => hostAct_writeCmd_accepted w s ((accepts_iff s).2 h),
    fun h => hostAct_writeCmd_dropped w s ((not_accepts_iff s).2 h)⟩

end Sys2Proof.Machine
end

section
/-! PROOFS. The family 40_datapath.md: the default tables, the lookups, the division and the multiply-add, the digit-count
table, and packing. -/

namespace Sys2Proof.Machine

/-! ### Lookup in both directions (40_datapath.md R91, R95, R96) -/

/-- Settles O49: in a ROM of `N` entries without repeats, both lookups speak of entry `d`. -/
theorem alphabetLookupBijection : Obligations.AlphabetLookupBijection := by
  intro T a hT
  obtain ⟨hlen, hnodup, -⟩ := legalRom_of_tables T hT a
  have hval := val_some_iff T a hnodup
  refine ⟨fun d hd => (hval _ d).2 (chr_of_lt T a d (hlen.symm ▸ hd)), fun c d h => ?_, val_none_iff T a⟩
  have hd : d < (romOf T a).length := lt_of_val T a c d h
  have hchr : some (chr T a d) = some c := (chr_of_lt T a d hd).symm.trans ((hval c d).1 h)
  exact ⟨hlen ▸ hd, Option.some.inj hchr⟩

/-! ### Packing (40_datapath.md R102, R103) -/

/-- The bytes above the lowest stand one place further up, so they count 256 times their own sum. -/
theorem packLE_eq_sum (b : List Byte) :
    packLE b = ∑ i ∈ Finset.range b.length, (b.getD i 0).toNat * 2 ^ (8 * i) := by
  induction b with
  | nil => rfl
  | cons x xs ih =>
    have hplace (y i : Nat) : y * 2 ^ (8 * (i + 1)) = 256 * (y * 2 ^ (8 * i)) := by
      rw [Nat.mul_add, Nat.pow_add]; ring
    rw [packLE, ih, Finset.mul_sum, List.length_cons, Finset.sum_range_succ', Nat.add_comm]
    simp [hplace]

/-- 16 bytes fit the 128-bit accumulator. -/
theorem packLE_lt_accumulator (b : List Byte) (h : b.length ≤ 16) : packLE b < 2 ^ 128 :=
  (packLE_lt b).trans_le (Nat.pow_le_pow_right (by decide) (by omega))

theorem unpackLE_getElem?_toNat (v k i : Nat) (h : i < k) :
    (unpackLE v k)[i]?.map BitVec.toNat = some (v / 2 ^ (8 * i) % 256) := by
  rw [unpackLE_getElem? v k i h, Option.map_some, BitVec.toNat_ofNat]

/-- The low byte of a packed number is its first byte, and the rest packs the rest. -/
theorem unpackLE_packLE (b : List Byte) : unpackLE (packLE b) b.length = b := by
  induction b with
  | nil => rfl
  | cons x xs ih =>
    have hlow : BitVec.ofNat 8 (x.toNat + 256 * packLE xs) = x :=
      BitVec.eq_of_toNat_eq (by simp [Nat.mod_eq_of_lt x.isLt])
    have hrest : (x.toNat + 256 * packLE xs) / 256 = packLE xs := by have := x.isLt; omega
    rw [List.length_cons, unpackLE_succ, packLE, hlow, hrest, ih]

/-- Division by 256 splits off the low byte, and the quotient has one byte less. -/
theorem packLE_unpackLE (v k : Nat) (h : v < 2 ^ (8 * k)) : packLE (unpackLE v k) = v := by
  induction k generalizing v with
  | zero => exact (Nat.lt_one_iff.1 h).symm
  | succ k ih =>
    have hrest : v / 256 < 2 ^ (8 * k) := Nat.div_lt_of_lt_mul (by rwa [Nat.mul_add, Nat.pow_add, Nat.mul_comm] at h)
    rw [unpackLE_succ, packLE, ih _ hrest, BitVec.toNat_ofNat]
    exact Nat.mod_add_div v 256

/-- Settles O53, by induction on the bytes. -/
theorem packingIsLittleEndian : Obligations.PackingIsLittleEndian :=
  ⟨packLE_eq_sum, packLE_lt, packLE_lt_accumulator, rfl,
    fun v k => ⟨unpackLE_length v k, unpackLE_getElem?_toNat v k⟩, unpackLE_packLE, packLE_unpackLE⟩

/-! ### The default tables (40_datapath.md R90 to R94) -/

theorem romTables_legalRom (a : Alphabet) : LegalRom (radix a) (romOf romTables a) where
  length := romTables_length a
  distinct := romTables_nodup a
  chars := by unfold AlphabetChar; cases a <;> decide +kernel

/-- The 44-alphabet is the 43-alphabet with `$` put in before the punctuation. -/
theorem alpha44Rom_perm : alpha44Rom.Perm (0x24 :: alpha43Rom) := List.perm_middle

theorem romTables_legal : LegalTables romTables where
  rom43 := romTables_legalRom .alpha43
  rom44 := romTables_legalRom .alpha44
  dollar := ⟨by decide, alpha44Rom_perm.mem_iff.2 List.mem_cons_self⟩
  superset c := alpha44Rom_perm.mem_iff.trans (List.mem_cons.trans or_comm)
  fixed43 := by decide
  memberA := by decide
  fixed44 := by decide

/-- Settles O48. -/
theorem defaultTablesAreLegal : Obligations.DefaultTablesAreLegal :=
  ⟨romTables_legal, by decide, by decide⟩

/-! ### The digit-count table (40_datapath.md R100, R101) -/

/-- No positive power of a radix is a power of two, so R100's two forms of the bound agree: 43 and 11 are odd primes. -/
theorem radix_pow_ne_two_pow (a : Alphabet) (D bits : Nat) (hD : D ≠ 0) : radix a ^ D ≠ 2 ^ bits := by
  obtain ⟨p, hp, hodd, hdvd⟩ : ∃ p, p.Prime ∧ ¬ p ∣ 2 ∧ p ∣ radix a := by
    cases a with
    | alpha43 => exact ⟨43, by norm_num, by decide, by decide⟩
    | alpha44 => exact ⟨11, by norm_num, by decide, by decide⟩
  intro h
  exact hodd (hp.dvd_of_dvd_pow (h ▸ dvd_pow hdvd hD))

/-- One digit less than the table's count does not reach `2^bits`: a check of its 128 entries for each radix. -/
theorem digitCount_pred_short (a : Alphabet) (bits : Nat) (h1 : 1 ≤ bits) (h : bits ≤ 128) :
    radix a ^ (digitCount a bits - 1) < 2 ^ bits := by
  have key : ∀ b ∈ List.range 129, 1 ≤ b → radix a ^ (digitCount a b - 1) < 2 ^ b := by cases a <;> decide +kernel
  exact key bits (List.mem_range.2 (by omega)) h1

theorem digitCount_pos (a : Alphabet) (bits : Nat) : 1 ≤ digitCount a bits := Nat.le_add_left 1 _

/-- Settles O50: the table's count is enough, one less is not, and powers of the radix grow with the exponent. -/
theorem digitCountIsLeast : Obligations.DigitCountIsLeast := by
  intro a bits h1 h
  have hpos := digitCount_pos a bits
  have hne : radix a ^ digitCount a bits ≠ 2 ^ bits := radix_pow_ne_two_pow a _ bits (by omega)
  refine ⟨hpos, lt_of_le_of_ne (digitCount_enough a bits h) hne.symm, fun D hD => Nat.le_sub_one_of_lt ?_⟩
  calc radix a ^ D ≤ radix a ^ (digitCount a bits - 1) := Nat.pow_le_pow_right (radix_pos a) (by omega)
    _ < 2 ^ bits := digitCount_pred_short a bits h1 h

/-! ### The multiply-add (40_datapath.md R99) -/

/-- The overflow test that forms no product wider than the accumulator. -/
theorem mac_none_iff_div (a : Alphabet) (v d : Nat) (hd : d < radix a) :
    mac a v d = none ↔ (2 ^ 128 - 1 - d) / radix a < v := by
  have hsmall : d ≤ 2 ^ 128 - 1 := by rcases radix_cases a with h | h <;> omega
  rw [mac_none_iff, Nat.div_lt_iff_lt_mul (radix_pos a)]
  omega

/-- Settles O51. -/
theorem multiplyAddIsExact : Obligations.MultiplyAddIsExact :=
  fun a v d _ hd => ⟨fun h => (mac_some_iff a v d _).2 ⟨Nat.lt_of_le_sub_one (by decide) h, rfl⟩,
    mac_none_iff a v d, mac_none_iff_div a v d hd⟩

/-! ### The extraction pipeline (40_datapath.md R97, R98) -/

theorem divmod_fst_le (a : Alphabet) (x bound : Nat) (h : x ≤ bound) : (divmod a x).1 ≤ bound / radix a :=
  Nat.div_le_div_right h

theorem divmod_snd_lt (a : Alphabet) (x : Nat) : (divmod a x).2 < radix a := Nat.mod_lt x (radix_pos a)

/-- Settles O52: each stage's quotient is bounded by the quotient of the bound before it. -/
theorem extractionStaysInRange : Obligations.ExtractionStaysInRange := by
  intro a x
  refine ⟨fun hpair => ?_, fun hbyte => ⟨?_, divmod_snd_lt a x⟩⟩
  · have hq1 := divmod_fst_le a x 65535 hpair
    have hq2 := divmod_fst_le a _ _ hq1
    refine ⟨?_, ?_, divmod_snd_lt a x, divmod_snd_lt a _⟩
    · cases a <;> exact hq1
    · cases a <;> exact hq2
  · have hq := divmod_fst_le a x 255 hbyte
    cases a <;> exact hq

end Sys2Proof.Machine
end

section
/-! PROOFS. The family 41_bytepair.md: a group of characters and the number it writes, ENC and DEC block by block, the
round trips, and the two commands on the machine. -/

namespace Sys2Proof.Machine

/-! ### A group of characters and the number it writes (41_bytepair.md R111, R113) -/

/-- The number that a group of characters writes, least significant digit first; `none` if one of them is outside the
alphabet. `decodeTriple_eq`, `decodeLastPair_eq`, `encodePair_eq` and `encodeSingle_eq` tie it to the commands. -/
def groupValue (T : Config.Tables) (a : Alphabet) : List Byte → Option Nat
  | [] => some 0
  | c :: cs => (val T a c).bind fun d => (groupValue T a cs).map fun v => v * radix a + d

/-- The `k` characters of the number `x`, least significant digit first. -/
def groupChars (T : Config.Tables) (a : Alphabet) (k x : Nat) : List Byte := (extractDigits a k x).map (chr T a)

theorem groupValue_cons_some_iff (T : Config.Tables) (a : Alphabet) (c : Byte) (cs : List Byte) (x : Nat) :
    groupValue T a (c :: cs) = some x ↔
      ∃ d v, val T a c = some d ∧ groupValue T a cs = some v ∧ v * radix a + d = x := by
  simp [groupValue, Option.bind_eq_some_iff]

theorem groupChars_succ (T : Config.Tables) (a : Alphabet) (k x : Nat) :
    groupChars T a (k + 1) x = chr T a (x % radix a) :: groupChars T a k (x / radix a) := rfl

/-- Reading a group's characters gives back every number that fits the group. -/
theorem groupValue_groupChars (T : Config.Tables) (hT : LegalTables T) (a : Alphabet) (k x : Nat)
    (hx : x < radix a ^ k) : groupValue T a (groupChars T a k x) = some x := by
  induction k generalizing x with
  | zero => exact congrArg some (Nat.lt_one_iff.1 hx).symm
  | succ k ih =>
    obtain ⟨hval, -, -⟩ := alphabetLookupBijection T a hT
    have hquot : x / radix a < radix a ^ k := Nat.div_lt_of_lt_mul (by rwa [pow_succ, mul_comm] at hx)
    rw [groupChars_succ, groupValue_cons_some_iff]
    exact ⟨_, _, hval _ (Nat.mod_lt x (radix_pos a)), ih _ hquot, Nat.div_add_mod' x (radix a)⟩

/-- Writing a group's number gives back its characters. -/
theorem groupChars_of_groupValue (T : Config.Tables) (hT : LegalTables T) (a : Alphabet) (cs : List Byte) (x : Nat)
    (h : groupValue T a cs = some x) : groupChars T a cs.length x = cs := by
  induction cs generalizing x with
  | nil => rfl
  | cons c cs ih =>
    obtain ⟨d, v, hd, hv, rfl⟩ := (groupValue_cons_some_iff T a c cs x).1 h
    obtain ⟨-, hchr, -⟩ := alphabetLookupBijection T a hT
    obtain ⟨hlt, hc⟩ := hchr c d hd
    have hmod : (v * radix a + d) % radix a = d := by rw [Nat.mul_add_mod', Nat.mod_eq_of_lt hlt]
    have hdiv : (v * radix a + d) / radix a = v := by
      rw [Nat.mul_comm, Nat.mul_add_div (radix_pos a), Nat.div_eq_of_lt hlt, Nat.add_zero]
    rw [List.length_cons, groupChars_succ, hmod, hdiv, hc, ih v hv]

/-- Three digits hold every pair of bytes. -/
theorem pair_lt_radix_pow (a : Alphabet) (x : Nat) (h : x ≤ 65535) : x < radix a ^ 3 := by
  rcases radix_cases a with hr | hr <;> rw [hr] <;> omega

/-- Two digits hold every byte. -/
theorem byte_lt_radix_pow (a : Alphabet) (x : Nat) (h : x ≤ 255) : x < radix a ^ 2 := by
  rcases radix_cases a with hr | hr <;> rw [hr] <;> omega

/-- The number of a pair of bytes, the high byte first (41_bytepair.md R111). -/
def pairNumber (hi lo : Byte) : Nat := hi.toNat * 256 + lo.toNat

/-- The two bytes of a pair's number, the high byte first (41_bytepair.md R113). -/
def pairBytes (x : Nat) : List Byte := [BitVec.ofNat 8 (x / 256), BitVec.ofNat 8 (x % 256)]

/-- The byte of a last pair of characters (41_bytepair.md R113). -/
def lastByte (x : Nat) : List Byte := [BitVec.ofNat 8 x]

theorem pairNumber_le (hi lo : Byte) : pairNumber hi lo ≤ 65535 := by
  have := hi.isLt; have := lo.isLt; unfold pairNumber; omega

theorem byte_toNat_le (b : Byte) : b.toNat ≤ 255 := Nat.le_of_lt_succ b.isLt

theorem pairBytes_pairNumber (hi lo : Byte) : pairBytes (pairNumber hi lo) = [hi, lo] := by
  have hlo := lo.isLt
  have hdiv : pairNumber hi lo / 256 = hi.toNat := by unfold pairNumber; omega
  have hmod : pairNumber hi lo % 256 = lo.toNat := by unfold pairNumber; omega
  simp [pairBytes, hdiv, hmod]

theorem pairNumber_pairBytes (x : Nat) (h : x ≤ 65535) :
    pairNumber (BitVec.ofNat 8 (x / 256)) (BitVec.ofNat 8 (x % 256)) = x := by
  simp only [pairNumber, BitVec.toNat_ofNat]; omega

/-! ### ENC group by group (41_bytepair.md R111) -/

/-- The last quotient of a pair is its own remainder, so that the third character is a digit's (40_datapath.md R98). -/
theorem encodePair_eq (T : Config.Tables) (a : Alphabet) (hi lo : Byte) :
    encodePair T a hi lo = groupChars T a 3 (pairNumber hi lo) := by
  have hlt := pair_lt_radix_pow a _ (pairNumber_le hi lo)
  have hlast : pairNumber hi lo / radix a / radix a < radix a := by
    rw [Nat.div_div_eq_div_mul]; exact Nat.div_lt_of_lt_mul (by rwa [← pow_two, ← pow_succ])
  simp only [groupChars_succ, Nat.mod_eq_of_lt hlast]
  rfl

theorem encodeSingle_eq (T : Config.Tables) (a : Alphabet) (b : Byte) :
    encodeSingle T a b = groupChars T a 2 b.toNat := by
  have hlt := byte_lt_radix_pow a _ (byte_toNat_le b)
  have hlast : b.toNat / radix a < radix a := Nat.div_lt_of_lt_mul (by rwa [← pow_two])
  simp only [groupChars_succ, Nat.mod_eq_of_lt hlast]
  rfl

/-! ### DEC group by group (41_bytepair.md R113; 60_exceptions.md R171 (c)) -/

/-- What a full group answers: the lookups decide first, then the bound on the number. -/
def groupAnswer (bound : Nat) (bytes : Nat → List Byte) : Option Nat → Except ErrKind (List Byte)
  | none => .error .invalidChar
  | some x => if bound < x then .error .overflow else .ok (bytes x)

theorem groupAnswer_overflow (bound x : Nat) (bytes : Nat → List Byte) (h : bound < x) :
    groupAnswer bound bytes (some x) = .error .overflow := if_pos h

theorem groupAnswer_ok (bound x : Nat) (bytes : Nat → List Byte) (h : x ≤ bound) :
    groupAnswer bound bytes (some x) = .ok (bytes x) := if_neg (Nat.not_lt.2 h)

theorem groupAnswer_ok_inv (bound : Nat) (bytes : Nat → List Byte) (v : Option Nat) (out : List Byte)
    (h : groupAnswer bound bytes v = .ok out) : ∃ x, v = some x ∧ x ≤ bound ∧ bytes x = out := by
  cases v with
  | none => cases h
  | some x =>
    by_cases hx : bound < x
    · rw [groupAnswer_overflow _ _ _ hx] at h; cases h
    · rw [groupAnswer_ok _ _ _ (Nat.not_lt.1 hx)] at h
      exact ⟨x, rfl, Nat.not_lt.1 hx, Except.ok.inj h⟩

theorem groupValue_triple_some_iff (T : Config.Tables) (a : Alphabet) (c0 c1 c2 : Byte) (x : Nat) :
    groupValue T a [c0, c1, c2] = some x ↔ ∃ v0 v1 v2, val T a c0 = some v0 ∧ val T a c1 = some v1 ∧
      val T a c2 = some v2 ∧ v2 * radix a * radix a + v1 * radix a + v0 = x := by
  simp [groupValue, Option.bind_eq_some_iff, Nat.add_mul]

theorem groupValue_pair_some_iff (T : Config.Tables) (a : Alphabet) (c0 c1 : Byte) (x : Nat) :
    groupValue T a [c0, c1] = some x ↔
      ∃ v0 v1, val T a c0 = some v0 ∧ val T a c1 = some v1 ∧ v1 * radix a + v0 = x := by
  simp [groupValue, Option.bind_eq_some_iff]

theorem decodeTriple_eq (T : Config.Tables) (a : Alphabet) (c0 c1 c2 : Byte) :
    decodeTriple T a c0 c1 c2 = groupAnswer 65535 pairBytes (groupValue T a [c0, c1, c2]) := by
  unfold decodeTriple
  split
  next v0 v1 v2 h0 h1 h2 =>
    rw [(groupValue_triple_some_iff T a c0 c1 c2 _).2 ⟨v0, v1, v2, h0, h1, h2, rfl⟩]; rfl
  next hnone =>
    cases hv : groupValue T a [c0, c1, c2] with
    | none => rfl
    | some x =>
      obtain ⟨v0, v1, v2, h0, h1, h2, -⟩ := (groupValue_triple_some_iff T a c0 c1 c2 x).1 hv
      exact (hnone v0 v1 v2 h0 h1 h2).elim

theorem decodeLastPair_eq (T : Config.Tables) (a : Alphabet) (c0 c1 : Byte) :
    decodeLastPair T a c0 c1 = groupAnswer 255 lastByte (groupValue T a [c0, c1]) := by
  unfold decodeLastPair
  split
  next v0 v1 h0 h1 => rw [(groupValue_pair_some_iff T a c0 c1 _).2 ⟨v0, v1, h0, h1, rfl⟩]; rfl
  next hnone =>
    cases hv : groupValue T a [c0, c1] with
    | none => rfl
    | some x =>
      obtain ⟨v0, v1, h0, h1, -⟩ := (groupValue_pair_some_iff T a c0 c1 x).1 hv
      exact (hnone v0 v1 h0 h1).elim

theorem tripleAt_eq (a : Alphabet) (s : State) (i : Nat) :
    tripleAt a s i = groupValue romTables a [ibufByte s i, ibufByte s (i + 1), ibufByte s (i + 2)] := by
  ext x
  rw [groupValue_triple_some_iff, tripleAt]
  split
  next v0 v1 v2 h0 h1 h2 => simp [h0, h1, h2]
  next hnone => exact ⟨nofun, fun ⟨v0, v1, v2, h0, h1, h2, _⟩ => (hnone v0 v1 v2 h0 h1 h2).elim⟩

theorem pairAt_eq (a : Alphabet) (s : State) (i : Nat) :
    pairAt a s i = groupValue romTables a [ibufByte s i, ibufByte s (i + 1)] := by
  ext x
  rw [groupValue_pair_some_iff, pairAt]
  split
  next v0 v1 h0 h1 => simp [h0, h1]
  next hnone => exact ⟨nofun, fun ⟨v0, v1, h0, h1, _⟩ => (hnone v0 v1 h0 h1).elim⟩

/-- A leading triple that passes puts its two bytes before what the rest gives; one that fails ends it. -/
theorem decodeGroups_triple (T : Config.Tables) (a : Alphabet) (c0 c1 c2 : Byte) (rest : List Byte) :
    decodeGroups T a (c0 :: c1 :: c2 :: rest) =
      (groupAnswer 65535 pairBytes (groupValue T a [c0, c1, c2])).bind fun bytes =>
        (decodeGroups T a rest).map (bytes ++ ·) := by
  rw [decodeGroups, decodeTriple_eq]
  cases groupAnswer 65535 pairBytes (groupValue T a [c0, c1, c2]) with
  | error k => rfl
  | ok bytes => cases decodeGroups T a rest <;> rfl

theorem decodeGroups_triple_ok_inv (T : Config.Tables) (a : Alphabet) (c0 c1 c2 : Byte) (rest b : List Byte)
    (h : decodeGroups T a (c0 :: c1 :: c2 :: rest) = .ok b) :
    ∃ x more, groupValue T a [c0, c1, c2] = some x ∧ x ≤ 65535 ∧ decodeGroups T a rest = .ok more ∧
      pairBytes x ++ more = b := by
  rw [decodeGroups_triple] at h
  cases htriple : groupAnswer 65535 pairBytes (groupValue T a [c0, c1, c2]) with
  | error k => rw [htriple] at h; cases h
  | ok bytes =>
    obtain ⟨x, hx, hle, rfl⟩ := groupAnswer_ok_inv _ _ _ _ htriple
    cases hrest : decodeGroups T a rest with
    | error k => rw [htriple, hrest] at h; cases h
    | ok more => rw [htriple, hrest] at h; exact ⟨x, more, hx, hle, rfl, Except.ok.inj h⟩

theorem decodeGroups_pair (T : Config.Tables) (a : Alphabet) (c0 c1 : Byte) :
    decodeGroups T a [c0, c1] = groupAnswer 255 lastByte (groupValue T a [c0, c1]) := decodeLastPair_eq T a c0 c1

theorem decResult_ok_iff (T : Config.Tables) (a : Alphabet) (str b : List Byte) :
    decResult T a str = .ok b ↔ decodeGroups T a str = .ok b := by
  unfold decResult
  cases decodeGroups T a str <;> simp

theorem decResult_of_error (T : Config.Tables) (a : Alphabet) (str : List Byte) (k : ErrKind)
    (h : decodeGroups T a str = .error k) : decResult T a str = .err k := by
  rw [decResult, h]

/-! ### The round trips (41_bytepair.md R115) -/

/-- Settles O54, by induction on the pairs of bytes. -/
theorem bytePairRoundTrip : Obligations.BytePairRoundTrip := by
  intro T a b hT
  rw [decResult_ok_iff]
  induction b using encodeBytes.induct with
  | case1 => rfl
  | case2 b =>
    have hvalue := groupValue_groupChars T hT a 2 _ (byte_lt_radix_pow a _ (byte_toNat_le b))
    calc decodeGroups T a (encodeSingle T a b)
        = groupAnswer 255 lastByte (groupValue T a (encodeSingle T a b)) := decodeGroups_pair T a _ _
      _ = .ok (lastByte b.toNat) := by rw [encodeSingle_eq, hvalue, groupAnswer_ok _ _ _ (byte_toNat_le b)]
      _ = .ok [b] := by simp [lastByte]
  | case3 hi lo rest ih =>
    have hle := pairNumber_le hi lo
    have hvalue := groupValue_groupChars T hT a 3 _ (pair_lt_radix_pow a _ hle)
    calc decodeGroups T a (encodePair T a hi lo ++ encodeBytes T a rest)
        = (groupAnswer 65535 pairBytes (groupValue T a (encodePair T a hi lo))).bind fun bytes =>
            (decodeGroups T a (encodeBytes T a rest)).map (bytes ++ ·) := decodeGroups_triple T a _ _ _ _
      _ = .ok (pairBytes (pairNumber hi lo) ++ rest) := by
          rw [encodePair_eq, hvalue, groupAnswer_ok _ _ _ hle, ih]; rfl
      _ = .ok (hi :: lo :: rest) := by rw [pairBytes_pairNumber]; rfl

/-- ENC of the two bytes of a triple's number is the triple. -/
theorem encodePair_of_groupValue (T : Config.Tables) (hT : LegalTables T) (a : Alphabet) (c0 c1 c2 : Byte) (x : Nat)
    (h : groupValue T a [c0, c1, c2] = some x) (hx : x ≤ 65535) :
    encodePair T a (BitVec.ofNat 8 (x / 256)) (BitVec.ofNat 8 (x % 256)) = [c0, c1, c2] := by
  rw [encodePair_eq, pairNumber_pairBytes x hx]
  exact groupChars_of_groupValue T hT a _ x h

/-- ENC of the byte of a last pair's number is the pair. -/
theorem encodeSingle_of_groupValue (T : Config.Tables) (hT : LegalTables T) (a : Alphabet) (c0 c1 : Byte) (x : Nat)
    (h : groupValue T a [c0, c1] = some x) (hx : x ≤ 255) :
    encodeSingle T a (BitVec.ofNat 8 x) = [c0, c1] := by
  rw [encodeSingle_eq, BitVec.toNat_ofNat, Nat.mod_eq_of_lt (by omega)]
  exact groupChars_of_groupValue T hT a _ x h

/-- A single leftover character is never accepted. -/
theorem decodeGroups_leftover (T : Config.Tables) (a : Alphabet) (c : Byte) :
    decodeGroups T a [c] = .error (if val T a c = none then .invalidChar else .dangling) := by
  rw [decodeGroups, decodeLeftover]
  cases val T a c <;> rfl

theorem encodeBytes_of_decodeGroups (T : Config.Tables) (hT : LegalTables T) (a : Alphabet) (str b : List Byte)
    (h : decodeGroups T a str = .ok b) : encodeBytes T a b = str := by
  induction str using groupsOfThree.induct generalizing b with
  | case1 => cases h; rfl
  | case2 c => rw [decodeGroups_leftover] at h; cases h
  | case3 c0 c1 =>
    rw [decodeGroups_pair] at h
    obtain ⟨x, hx, hle, rfl⟩ := groupAnswer_ok_inv _ _ _ _ h
    exact encodeSingle_of_groupValue T hT a c0 c1 x hx hle
  | case4 c0 c1 c2 rest ih =>
    obtain ⟨x, more, hx, hle, hmore, rfl⟩ := decodeGroups_triple_ok_inv T a c0 c1 c2 rest b h
    calc encodeBytes T a (pairBytes x ++ more) = encodePair T a _ _ ++ encodeBytes T a more := rfl
      _ = c0 :: c1 :: c2 :: rest := by rw [encodePair_of_groupValue T hT a c0 c1 c2 x hx hle, ih more hmore]; rfl

/-- Settles O55, by induction on the groups of the string. -/
theorem bytePairDecodeIsInjective : Obligations.BytePairDecodeIsInjective := fun T a str b hT h =>
  congrArg Result.ok (encodeBytes_of_decodeGroups T hT a str b ((decResult_ok_iff T a str b).1 h))

/-! ### Alphabet membership (41_bytepair.md R112; 42_fixedwidth.md R132) -/

/-- The character of a digit is an entry of a legal table. -/
theorem chr_mem (T : Config.Tables) (hT : LegalTables T) (a : Alphabet) (d : Nat) (h : d < radix a) :
    chr T a d ∈ romOf T a :=
  List.mem_of_getElem? (chr_of_lt T a d ((legalRom_of_tables T hT a).length.symm ▸ h))

/-- Extraction gives digits only, so that every character written for them is an entry. -/
theorem groupChars_mem (T : Config.Tables) (hT : LegalTables T) (a : Alphabet) (k x : Nat) :
    ∀ c ∈ groupChars T a k x, c ∈ romOf T a := by
  intro c hc
  obtain ⟨d, hd, rfl⟩ := List.mem_map.1 hc
  exact chr_mem T hT a d (extractDigits_lt a k x d hd)

/-- Writing most significant first writes the same characters. -/
theorem writeMsbFirst_mem (T : Config.Tables) (hT : LegalTables T) (a : Alphabet) (k x : Nat) :
    ∀ c ∈ writeMsbFirst T a (extractDigits a k x), c ∈ romOf T a := by
  intro c hc
  rw [writeMsbFirst, List.map_reverse, List.mem_reverse] at hc
  exact groupChars_mem T hT a k x c hc

theorem encodeBytes_mem (T : Config.Tables) (hT : LegalTables T) (a : Alphabet) (b : List Byte) :
    ∀ c ∈ encodeBytes T a b, c ∈ romOf T a := by
  induction b using encodeBytes.induct with
  | case1 => nofun
  | case2 b =>
    rw [encodeBytes, encodeSingle_eq]
    exact groupChars_mem T hT a 2 _
  | case3 hi lo rest ih =>
    rw [encodeBytes_pair, encodePair_eq]
    intro c hc
    exact (List.mem_append.1 hc).elim (groupChars_mem T hT a 3 _ c) (ih c)

theorem encbResult_ok_inv (T : Config.Tables) (a : Alphabet) (bits : Nat) (input out : List Byte)
    (h : encbResult T a bits input = .ok out) :
    writeMsbFirst T a (extractDigits a (digitCount a bits) (packLE input)) = out := by
  unfold encbResult at h
  split_ifs at h
  exact Result.ok.inj h

/-- A result of ENC103 is one of ENCB at 103 bits (30_encoding.md R79). -/
theorem encbResult_of_enc103Result_ok (T : Config.Tables) (a : Alphabet) (input out : List Byte)
    (h : enc103Result T a input = .ok out) : encbResult T a 103 input = .ok out := by
  by_cases hlen : input.length = 13
  · rwa [← enc103Result_eq_encbResult T a input hlen]
  · rw [enc103Result, if_pos hlen] at h; cases h

/-- Settles O13: every encoder writes the characters of extracted digits. -/
theorem encodersWriteAlphabetCharacters : Obligations.EncodersWriteAlphabetCharacters := by
  intro T a bits input out hT h
  have hencb (n : Nat) (hn : encbResult T a n input = .ok out) : ∀ c ∈ out, c ∈ romOf T a :=
    encbResult_ok_inv T a n input out hn ▸ writeMsbFirst_mem T hT a _ _
  rcases h with henc | hb | h103
  · exact Result.ok.inj henc ▸ encodeBytes_mem T hT a input
  · exact hencb bits hb
  · exact hencb 103 (encbResult_of_enc103Result_ok T a input out h103)

/-! ### Blocks of equal length: where a group's output stands in the whole -/

section Blocks

variable {α : Type} (m : Nat) (block : Nat → List α) (hblock : ∀ k, (block k).length = m)
include hblock

theorem blocks_length (j : Nat) : ((List.range j).flatMap block).length = m * j := by
  simp [List.length_flatMap, hblock, Nat.mul_comm]

/-- What follows `j` blocks starts at index `m * j`. -/
theorem blocks_getElem?_tail (j r : Nat) (tail : List α) :
    ((List.range j).flatMap block ++ tail)[m * j + r]? = tail[r]? := by
  have hlen := blocks_length m block hblock j
  rw [List.getElem?_append_right (by omega), hlen, Nat.add_sub_cancel_left]

/-- Entry `r` of block `k` stands at index `m * k + r`. -/
theorem blocks_getElem? (j k r : Nat) (tail : List α) (hk : k < j) (hr : r < m) :
    ((List.range j).flatMap block ++ tail)[m * k + r]? = (block k)[r]? := by
  induction j generalizing tail with
  | zero => cases hk
  | succ j ih =>
    rw [List.range_succ, List.flatMap_append, List.append_assoc]
    rcases Nat.lt_succ_iff_lt_or_eq.1 hk with hlt | rfl
    · exact ih _ hlt
    · rw [blocks_getElem?_tail m block hblock, List.flatMap_singleton, List.getElem?_append_left (by rwa [hblock])]

end Blocks

/-! ### ENC and DEC on the bytes of a buffer, block by block -/

/-- ENC of `2 * j + n` bytes: `j` pairs, then the rest. -/
theorem encodeBytes_blocks (T : Config.Tables) (a : Alphabet) (f : Nat → Byte) (j n : Nat) :
    encodeBytes T a ((List.range (2 * j + n)).map f) =
      (List.range j).flatMap (fun k => encodePair T a (f (2 * k)) (f (2 * k + 1))) ++
        encodeBytes T a ((List.range' (2 * j) n).map f) := by
  induction j generalizing n with
  | zero => simp [List.range_eq_range']
  | succ j ih =>
    rw [show 2 * (j + 1) + n = 2 * j + (n + 2) by omega, ih (n + 2), List.range_succ, List.flatMap_append,
      List.flatMap_singleton, List.append_assoc]
    rfl

/-- Characters `3 * k` to `3 * k + 2` of an ENC string are those of pair `k`. -/
theorem encodeBytes_getElem?_pair (T : Config.Tables) (a : Alphabet) (f : Nat → Byte) (n k r : Nat)
    (hk : 2 * k + 1 < n) (hr : r < 3) :
    (encodeBytes T a ((List.range n).map f))[3 * k + r]? = (encodePair T a (f (2 * k)) (f (2 * k + 1)))[r]? := by
  obtain ⟨rest, rfl⟩ : ∃ rest, n = 2 * (k + 1) + rest := ⟨n - 2 * (k + 1), by omega⟩
  rw [encodeBytes_blocks]
  exact blocks_getElem? 3 _ (fun _ => rfl) (k + 1) k r _ (Nat.lt_succ_self k) hr

/-- The characters after those of the pairs are those of a last odd byte. -/
theorem encodeBytes_getElem?_single (T : Config.Tables) (a : Alphabet) (f : Nat → Byte) (n r : Nat) (hodd : n % 2 = 1) :
    (encodeBytes T a ((List.range n).map f))[3 * (n / 2) + r]? = (encodeSingle T a (f (n - 1)))[r]? := by
  obtain ⟨j, rfl⟩ : ∃ j, n = 2 * j + 1 := ⟨n / 2, by omega⟩
  rw [encodeBytes_blocks, show (2 * j + 1) / 2 = j by omega]
  exact blocks_getElem?_tail 3 _ (fun _ => rfl) j r _

/-- DEC of `3 * j + n` characters whose first `j` triples pass: their bytes, then what the rest gives. -/
theorem decodeGroups_blocks (T : Config.Tables) (a : Alphabet) (f : Nat → Byte) (x : Nat → Nat) (j n : Nat)
    (h : ∀ k, k < j → groupValue T a [f (3 * k), f (3 * k + 1), f (3 * k + 2)] = some (x k) ∧ x k ≤ 65535) :
    decodeGroups T a ((List.range (3 * j + n)).map f) =
      (decodeGroups T a ((List.range' (3 * j) n).map f)).map
        ((List.range j).flatMap (fun k => pairBytes (x k)) ++ ·) := by
  induction j generalizing n with
  | zero =>
    rw [List.range_eq_range', Nat.mul_zero, Nat.zero_add]
    cases decodeGroups T a ((List.range' 0 n).map f) <;> rfl
  | succ j ih =>
    obtain ⟨hx, hle⟩ := h j (Nat.lt_succ_self j)
    have hgroup : decodeGroups T a ((List.range' (3 * j) (n + 3)).map f) =
        (decodeGroups T a ((List.range' (3 * (j + 1)) n).map f)).map (pairBytes (x j) ++ ·) := by
      have htriple := decodeGroups_triple T a (f (3 * j)) (f (3 * j + 1)) (f (3 * j + 2))
        ((List.range' (3 * (j + 1)) n).map f)
      rw [hx, groupAnswer_ok _ _ _ hle] at htriple
      exact htriple
    rw [show 3 * (j + 1) + n = 3 * j + (n + 3) by omega, ih (n + 3) fun k hk => h k (by omega), hgroup,
      List.range_succ, List.flatMap_append, List.flatMap_singleton]
    cases decodeGroups T a ((List.range' (3 * (j + 1)) n).map f) with
    | error k => rfl
    | ok more => exact congrArg Except.ok (List.append_assoc _ _ _).symm

/-! ### The two commands on the machine (60_exceptions.md R166, R167) -/

theorem exec_of_ok (i : Instr) (s : State) (out : List Byte) (hcap : s.ilen.toNat ≤ Config.ibufCap)
    (h : resultOf i (inputBytes s) = .ok out) :
    exec i s = .next (withResult s out (BitVec.ofNat 32 out.length)) := by
  rw [exec_eq, outcomeOf_of_le _ _ hcap, h]
  rfl

theorem exec_of_err (i : Instr) (s : State) (k : ErrKind) (hcap : s.ilen.toNat ≤ Config.ibufCap)
    (h : resultOf i (inputBytes s) = .err k) : exec i s = .next (withError s k) := by
  rw [exec_eq, outcomeOf_of_le _ _ hcap, h]
  rfl

/-- ENC completes with the string of the input, and OLEN counts it (assumption 5). -/
theorem exec_enc (a : Alphabet) (s : State) (hcap : s.ilen.toNat ≤ Config.ibufCap) :
    ∃ n : Word, n.toNat = (encodeBytes romTables a (inputBytes s)).length ∧
      exec (.enc a) s = .next (withResult s (encodeBytes romTables a (inputBytes s)) n) :=
  ⟨_, result_olen (.enc a) s _ (outcomeOf_of_le _ s hcap), exec_of_ok (.enc a) s _ hcap rfl⟩

/-- Settles O12: three characters for each pair, two for a last odd byte. -/
theorem encCompletes : Obligations.EncCompletes := by
  intro a s hcap
  obtain ⟨n, hn, hexec⟩ := exec_enc a s hcap
  have hlen : (encodeBytes romTables a (inputBytes s)).length = 3 * (s.ilen.toNat / 2) + 2 * (s.ilen.toNat % 2) := by
    rw [encodeBytes_length, inputBytes_length]; omega
  refine ⟨_, n, hexec, hlen, hn, fun k hk => ?_, fun hodd => ?_⟩
  · have hchar (r : Nat) := encodeBytes_getElem?_pair romTables a (ibufByte s) _ k r hk
    exact ⟨hchar 0 (by decide), hchar 1 (by decide), hchar 2 (by decide)⟩
  · have hchar (r : Nat) := encodeBytes_getElem?_single romTables a (ibufByte s) _ r hodd
    rw [Nat.mul_comm _ 3]
    exact ⟨hchar 0, hchar 1⟩

/-- DEC on a buffer whose first `j` triples pass: their bytes, then what the rest gives. -/
theorem decodeGroups_inputBytes (a : Alphabet) (s : State) (x : Nat → Nat) (j n : Nat) (hn : 3 * j + n = s.ilen.toNat)
    (h : ∀ k, k < j → tripleAt a s (3 * k) = some (x k) ∧ x k ≤ 65535) :
    decodeGroups romTables a (inputBytes s) =
      (decodeGroups romTables a ((List.range' (3 * j) n).map (ibufByte s))).map
        ((List.range j).flatMap (fun k => pairBytes (x k)) ++ ·) := by
  rw [inputBytes, ← hn]
  exact decodeGroups_blocks romTables a (ibufByte s) x j n fun k hk => tripleAt_eq a s (3 * k) ▸ h k hk

/-- The bytes of `j` triples and of a last pair, if there is one. -/
def groupsBytes (x : Nat → Nat) (j n : Nat) : List Byte :=
  (List.range j).flatMap (fun k => pairBytes (x k)) ++ if n = 2 then lastByte (x j) else []

theorem groupsBytes_length (x : Nat → Nat) (j n : Nat) :
    (groupsBytes x j n).length = 2 * j + if n = 2 then 1 else 0 := by
  rw [groupsBytes, List.length_append, blocks_length 2 _ fun _ => rfl]
  split_ifs <;> rfl

theorem groupsBytes_getElem?_triple (x : Nat → Nat) (j n k : Nat) (hk : k < j) (hx : x k ≤ 65535) :
    (groupsBytes x j n)[2 * k]?.map BitVec.toNat = some (x k / 256) ∧
      (groupsBytes x j n)[2 * k + 1]?.map BitVec.toNat = some (x k % 256) := by
  have hbyte (r : Nat) (hr : r < 2) : (groupsBytes x j n)[2 * k + r]? = (pairBytes (x k))[r]? :=
    blocks_getElem? 2 _ (fun _ => rfl) j k r _ hk hr
  have hhi : x k / 256 < 256 := by omega
  refine ⟨(congrArg _ (hbyte 0 (by decide))).trans ?_, (congrArg _ (hbyte 1 (by decide))).trans ?_⟩
  · simp [pairBytes, Nat.mod_eq_of_lt hhi]
  · simp [pairBytes]

theorem groupsBytes_getElem?_last (x : Nat → Nat) (j : Nat) (hx : x j ≤ 255) :
    (groupsBytes x j 2)[2 * j]?.map BitVec.toNat = some (x j) := by
  have hbyte : (groupsBytes x j 2)[2 * j]? = (lastByte (x j))[0]? :=
    blocks_getElem?_tail 2 _ (fun _ => rfl) j 0 _
  rw [hbyte]
  exact congrArg some (Nat.mod_eq_of_lt (Nat.lt_succ_of_le hx))

/-- Settles O14: two bytes for each triple, one for a last pair. -/
theorem decCompletes : Obligations.DecCompletes := by
  intro a s x hcap hmod htriples hpair
  have hdecode : decodeGroups romTables a (inputBytes s) =
      .ok (groupsBytes x (s.ilen.toNat / 3) (s.ilen.toNat % 3)) := by
    rw [decodeGroups_inputBytes a s x _ _ (Nat.div_add_mod s.ilen.toNat 3) fun k hk => htriples k (by omega)]
    obtain h0 | h2 : s.ilen.toNat % 3 = 0 ∨ s.ilen.toNat % 3 = 2 := by omega
    · rw [h0]; rfl
    · obtain ⟨hlast, hle⟩ := hpair h2
      rw [Nat.mul_comm, pairAt_eq] at hlast
      have hrest := decodeGroups_pair romTables a (ibufByte s (3 * (s.ilen.toNat / 3)))
        (ibufByte s (3 * (s.ilen.toNat / 3) + 1))
      rw [hlast, groupAnswer_ok _ _ _ hle] at hrest
      rw [h2]
      exact congrArg _ hrest
  refine ⟨_, exec_of_ok (.dec a) s _ hcap ((decResult_ok_iff _ a _ _).2 hdecode), groupsBytes_length x _ _,
    fun k hk => ?_, fun h2 => ?_⟩
  · exact groupsBytes_getElem?_triple x _ _ k (by omega) (htriples k hk).2
  · rw [h2]; exact groupsBytes_getElem?_last x _ (hpair h2).2

/-- After triples that pass, the error of the rest is the error of DEC. -/
theorem exec_dec_of_rest_error (a : Alphabet) (s : State) (j n : Nat) (k : ErrKind)
    (hcap : s.ilen.toNat ≤ Config.ibufCap) (hpass : ∀ k, k < j → ∃ x, tripleAt a s (3 * k) = some x ∧ x ≤ 65535)
    (hn : 3 * j + n = s.ilen.toNat)
    (hrest : decodeGroups romTables a ((List.range' (3 * j) n).map (ibufByte s)) = .error k) :
    exec (.dec a) s = .next (withError s k) := by
  choose! x hx using hpass
  refine exec_of_err (.dec a) s k hcap (decResult_of_error _ a _ k ?_)
  rw [decodeGroups_inputBytes a s x j n hn hx, hrest]
  rfl

/-- A triple that fails ends DEC, whatever follows it. -/
theorem decodeGroups_bad_triple (a : Alphabet) (s : State) (i n : Nat) (k : ErrKind)
    (h : groupAnswer 65535 pairBytes (tripleAt a s i) = .error k) :
    decodeGroups romTables a ((List.range' i (n + 3)).map (ibufByte s)) = .error k := by
  rw [tripleAt_eq] at h
  have htriple := decodeGroups_triple romTables a (ibufByte s i) (ibufByte s (i + 1)) (ibufByte s (i + 2))
    ((List.range' (i + 3) n).map (ibufByte s))
  rwa [h] at htriple

/-- A last pair that fails gives its own error. -/
theorem decodeGroups_bad_pair (a : Alphabet) (s : State) (i : Nat) (k : ErrKind)
    (h : groupAnswer 255 lastByte (pairAt a s i) = .error k) :
    decodeGroups romTables a ((List.range' i 2).map (ibufByte s)) = .error k := by
  rw [pairAt_eq] at h
  exact (decodeGroups_pair romTables a _ _).trans h

/-- Settles O15: the rest after the triples that pass begins with the failing group. -/
theorem decStopsAtFirstBadGroup : Obligations.DecStopsAtFirstBadGroup := by
  intro a s j hcap hpass
  have hstop (n : Nat) (k : ErrKind) := exec_dec_of_rest_error a s j n k hcap hpass
  have htriple (k : ErrKind) (hlen : 3 * j + 2 < s.ilen.toNat)
      (h : groupAnswer 65535 pairBytes (tripleAt a s (3 * j)) = .error k) : exec (.dec a) s = .next (withError s k) :=
    hstop (s.ilen.toNat - (3 * j + 3) + 3) k (by omega) (decodeGroups_bad_triple a s _ _ k h)
  have hpair (k : ErrKind) (hlen : 3 * j + 2 = s.ilen.toNat)
      (h : groupAnswer 255 lastByte (pairAt a s (3 * j)) = .error k) : exec (.dec a) s = .next (withError s k) :=
    hstop 2 k hlen (decodeGroups_bad_pair a s _ k h)
  have hleft := decodeGroups_leftover romTables a (ibufByte s (3 * j))
  refine ⟨fun hlen h => ?_, fun hlen x h hx => ?_, fun hlen h => ?_, fun hlen h => ?_, fun hlen h => ?_,
    fun hlen x h hx => ?_⟩
  · exact htriple _ hlen (h ▸ rfl)
  · exact htriple _ hlen (h ▸ groupAnswer_overflow _ x _ hx)
  · exact hstop 1 _ hlen (hleft.trans (congrArg _ (if_pos h)))
  · exact hstop 1 _ hlen (hleft.trans (congrArg _ (if_neg h)))
  · exact hpair _ hlen (h ▸ rfl)
  · exact hpair _ hlen (h ▸ groupAnswer_overflow _ x _ hx)

/-- A state whose ILEN and IBUF hold a sequence gives the command that sequence as its input. -/
theorem inputBytes_eq_of_ibuf (s : State) (input : List Byte) (hlen : s.ilen.toNat = input.length)
    (h : ∀ k, k < input.length → input[k]? = some (ibufByte s k)) : inputBytes s = input := by
  refine List.ext_getElem? fun k => ?_
  by_cases hk : k < input.length
  · rw [h k hk, inputBytes_getElem? s k (by omega)]
  · rw [List.getElem?_eq_none (by rw [inputBytes_length]; omega), List.getElem?_eq_none (by omega)]

/-- Settles O59, by the round trip of the two functions: DEC is given the string that ENC wrote. -/
theorem machineBytePairRoundTrip : Obligations.MachineBytePairRoundTrip := by
  intro a s t u hcap hfit ht hilen hibuf
  obtain ⟨n, hn, hexec⟩ := exec_enc a s hcap
  obtain rfl := Host.Outcome.next.inj (ht.symm.trans hexec)
  replace hilen : u.ilen = n := hilen
  have hlen : u.ilen.toNat = (encodeBytes romTables a (inputBytes s)).length := hilen ▸ hn
  have hcarried : inputBytes u = encodeBytes romTables a (inputBytes s) :=
    inputBytes_eq_of_ibuf u _ hlen fun k hk =>
      (memory_find_holding_zero _ k).symm.trans (hibuf k (hn.symm ▸ hk))
  have hcapU : u.ilen.toNat ≤ Config.ibufCap := by rwa [hlen, encodeBytes_length, inputBytes_length]
  have hresult : decResult romTables a (inputBytes u) = .ok (inputBytes s) := by
    rw [hcarried]; exact bytePairRoundTrip romTables a _ romTables_legal
  refine ⟨_, exec_of_ok (.dec a) u _ hcapU hresult, rfl, rfl, ?_, fun k hk => ?_⟩
  · exact (congrArg _ (inputBytes_length s)).trans ((BitVec.ofNat_toNat 32 s.ilen).trans (BitVec.setWidth_eq _))
  · exact (memory_find_holding_zero _ k).trans (inputBytes_getElem? s k hk)

end Sys2Proof.Machine
end

section
/-! PROOFS. The family 42_fixedwidth.md: what the accumulation and the two functions answer, the round trips, and the
two commands on the machine. -/

namespace Sys2Proof.Machine

/-! ### A string and the digits it writes (42_fixedwidth.md R131, R133) -/

/-- Both lookups speak of the same pairs of a digit and its character (40_datapath.md R95, R96). -/
theorem val_some_iff_chr (T : Config.Tables) (hT : LegalTables T) (a : Alphabet) (c : Byte) (d : Nat) :
    val T a c = some d ↔ d < radix a ∧ chr T a d = c := by
  obtain ⟨hval, hchr, -⟩ := alphabetLookupBijection T a hT
  exact ⟨hchr c d, fun ⟨hd, hc⟩ => hc ▸ hval d hd⟩

/-- A string reads as a list of digits exactly when it is what the digits write. -/
theorem map_val_iff (T : Config.Tables) (hT : LegalTables T) (a : Alphabet) (cs : List Byte) (ds : List Nat) :
    cs.map (val T a) = ds.map some ↔ (∀ d ∈ ds, d < radix a) ∧ ds.map (chr T a) = cs := by
  induction cs generalizing ds with
  | nil => cases ds <;> simp
  | cons c cs ih =>
    cases ds with
    | nil => simp
    | cons d ds =>
      simp only [List.map_cons, List.cons.injEq, List.forall_mem_cons, ih, val_some_iff_chr T hT]
      exact and_and_and_comm

@[simp] theorem writeMsbFirst_length (T : Config.Tables) (a : Alphabet) (ds : List Nat) :
    (writeMsbFirst T a ds).length = ds.length := by simp [writeMsbFirst]

/-! ### The accumulation (42_fixedwidth.md R133; 60_exceptions.md R171 (b), (d)) -/

/-- The accumulator never leaves its 128 bits. -/
theorem accumulate_lt (T : Config.Tables) (a : Alphabet) (cs : List Byte) (v w : Nat) (hv : v < 2 ^ 128)
    (h : accumulate T a v cs = .ok w) : w < 2 ^ 128 := by
  induction cs generalizing v with
  | nil => exact Except.ok.inj h ▸ hv
  | cons c cs ih =>
    rw [accumulate_cons] at h
    split at h
    next => cases h
    next d _ =>
      split_ifs at h with hlt
      exact ih _ hlt h

/-- The converse of `accumulate_ok`: a number that fits the accumulator is reached, because no partial value
exceeds it. -/
theorem accumulate_of_digits (T : Config.Tables) (a : Alphabet) (cs : List Byte) (ds : List Nat)
    (hds : cs.map (val T a) = ds.map some) (hfit : valueMsb (radix a) ds < 2 ^ 128) :
    accumulate T a 0 cs = .ok (valueMsb (radix a) ds) := by
  induction ds using List.reverseRecOn generalizing cs with
  | nil => rw [List.map_eq_nil_iff.1 hds]; rfl
  | append_singleton ds d ih =>
    rw [List.map_append, List.map_eq_append_iff] at hds
    obtain ⟨xs, ys, rfl, hxs, hys⟩ := hds
    obtain ⟨c, rfl, hc⟩ := List.map_eq_singleton_iff.1 hys
    rw [valueMsb_append] at hfit ⊢
    have hle := Nat.le_mul_of_pos_right (valueMsb (radix a) ds) (radix_pos a)
    rw [accumulate_append T a xs [c] 0 _ (ih xs hxs (by omega)), accumulate_cons, hc]
    exact if_pos hfit

/-- The accumulation succeeds exactly on valid characters whose number fits 128 bits, and gives that number. -/
theorem accumulate_ok_iff (T : Config.Tables) (a : Alphabet) (cs : List Byte) (w : Nat) :
    accumulate T a 0 cs = .ok w ↔
      w < 2 ^ 128 ∧ ∃ ds : List Nat, cs.map (val T a) = ds.map some ∧ w = valueMsb (radix a) ds := by
  constructor
  · exact fun h => ⟨accumulate_lt T a cs 0 w (by decide) h, accumulate_ok T a cs w h⟩
  · rintro ⟨hfit, ds, hds, rfl⟩
    exact accumulate_of_digits T a cs ds hds hfit

/-! ### What ENCB and DECB answer (42_fixedwidth.md R131, R133; 60_exceptions.md R170, R171 (e)) -/

theorem not_badBitCount_iff (bits : Nat) : ¬ badBitCount bits = true ↔ 1 ≤ bits ∧ bits ≤ 128 := by
  rw [badBitCount_iff]; omega

theorem encbResult_badBits (T : Config.Tables) (a : Alphabet) (bits : Nat) (input : List Byte)
    (h : bits = 0 ∨ 128 < bits) : encbResult T a bits input = .fault .badBits := if_pos ((badBitCount_iff bits).2 h)

theorem decbResult_badBits (T : Config.Tables) (a : Alphabet) (bits : Nat) (input : List Byte)
    (h : bits = 0 ∨ 128 < bits) : decbResult T a bits input = .fault .badBits := if_pos ((badBitCount_iff bits).2 h)

section LegalBitCount

variable (T : Config.Tables) (a : Alphabet) (bits : Nat) (input : List Byte) (hbits : 1 ≤ bits ∧ bits ≤ 128)
include hbits

theorem encbResult_of_legal : encbResult T a bits input =
    if 16 < input.length then .fault .badLen
    else if 2 ^ bits ≤ packLE input then .fault .excess
    else .ok (writeMsbFirst T a (extractDigits a (digitCount a bits) (packLE input))) :=
  if_neg ((not_badBitCount_iff bits).2 hbits)

theorem decbResult_of_error (k : ErrKind) (h : accumulate T a 0 input = .error k) :
    decbResult T a bits input = .err k := by
  rw [decbResult, if_neg ((not_badBitCount_iff bits).2 hbits), h]

/-- The range check needs no exception for 128 bits: the accumulator holds no larger value. -/
theorem decbResult_of_value (v : Nat) (h : accumulate T a 0 input = .ok v) :
    decbResult T a bits input = if 2 ^ bits ≤ v then .err .overflow else .ok (unpackLE v ((bits + 7) / 8)) := by
  have hfit : v < 2 ^ 128 := accumulate_lt T a input 0 v (by decide) h
  have hcheck : (bits < 128 ∧ 2 ^ bits ≤ v) ↔ 2 ^ bits ≤ v := by
    refine and_iff_right_of_imp fun hv => lt_of_le_of_ne hbits.2 ?_
    rintro rfl
    exact absurd hv (Nat.not_le.2 hfit)
  rw [decbResult, if_neg ((not_badBitCount_iff bits).2 hbits), h]
  simp only [hcheck]

end LegalBitCount

/-- Everything it takes for ENCB to return a result, and which one. -/
theorem encbResult_ok_iff (T : Config.Tables) (a : Alphabet) (bits : Nat) (input out : List Byte) :
    encbResult T a bits input = .ok out ↔ (1 ≤ bits ∧ bits ≤ 128) ∧ input.length ≤ 16 ∧ packLE input < 2 ^ bits ∧
      writeMsbFirst T a (extractDigits a (digitCount a bits) (packLE input)) = out := by
  by_cases hbits : 1 ≤ bits ∧ bits ≤ 128
  · rw [encbResult_of_legal T a bits input hbits]
    split_ifs with hlen hval
    · simp [hlen]
    · simp [hval]
    · simp [hbits, Nat.not_lt.1 hlen, Nat.not_le.1 hval]
  · simp [encbResult_badBits T a bits input (by omega), hbits]

/-- Everything it takes for DECB to return a result, and which one. -/
theorem decbResult_ok_iff (T : Config.Tables) (a : Alphabet) (bits : Nat) (input out : List Byte) :
    decbResult T a bits input = .ok out ↔ (1 ≤ bits ∧ bits ≤ 128) ∧
      ∃ v, accumulate T a 0 input = .ok v ∧ v < 2 ^ bits ∧ unpackLE v ((bits + 7) / 8) = out := by
  by_cases hbits : 1 ≤ bits ∧ bits ≤ 128
  · cases hacc : accumulate T a 0 input with
    | error k => simp [decbResult_of_error T a bits input hbits k hacc]
    | ok v =>
      rw [decbResult_of_value T a bits input hbits v hacc]
      split_ifs with hval
      · simp [hval]
      · simp [hbits, Nat.not_le.1 hval]
  · simp [decbResult_badBits T a bits input (by omega), hbits]

/-- ENCB raises faults, never a recoverable error. -/
theorem encbResult_ne_err (T : Config.Tables) (a : Alphabet) (bits : Nat) (input : List Byte) (k : ErrKind) :
    encbResult T a bits input ≠ .err k := by
  unfold encbResult
  split_ifs <;> nofun

/-! ### The round trips (42_fixedwidth.md R135) -/

/-- Bytes beyond the top that are zero add nothing. -/
theorem packLE_append_zeros (b : List Byte) (n : Nat) : packLE (b ++ List.replicate n 0#8) = packLE b := by
  have hzeros : packLE (List.replicate n 0#8) = 0 := by
    induction n with
    | zero => rfl
    | succ n ih => rw [List.replicate_succ, packLE, ih]; rfl
  induction b with
  | nil => exact hzeros
  | cons x xs ih => rw [List.cons_append, packLE, ih, packLE]

theorem unpackLE_take (v n k : Nat) (h : k ≤ n) : (unpackLE v n).take k = unpackLE v k := by
  rw [unpackLE, ← List.map_take, List.take_range, Nat.min_eq_left h, unpackLE]

/-- Unpacking fewer bytes than were packed cuts the sequence. -/
theorem unpackLE_packLE_take (b : List Byte) (k : Nat) (h : k ≤ b.length) : unpackLE (packLE b) k = b.take k := by
  rw [← unpackLE_take _ _ _ h, unpackLE_packLE]

/-- Unpacking up to 16 bytes cuts the sequence or fills it with zero bytes. -/
theorem unpackLE_packLE_fill (b : List Byte) (k : Nat) (h : k ≤ 16) :
    unpackLE (packLE b) k = (b ++ List.replicate 16 0#8).take k := by
  rw [← unpackLE_packLE_take _ k (by simp; omega), packLE_append_zeros]

/-- The accumulation reads back every number that the digits of an ENCB string can hold. -/
theorem accumulate_writeMsbFirst (T : Config.Tables) (hT : LegalTables T) (a : Alphabet) (k v : Nat)
    (hdigits : v < radix a ^ k) (hfit : v < 2 ^ 128) :
    accumulate T a 0 (writeMsbFirst T a (extractDigits a k v)) = .ok v := by
  refine (accumulate_ok_iff T a _ v).2
    ⟨hfit, (extractDigits a k v).reverse, ?_, (extractDigits_value a k v hdigits).symm⟩
  exact (map_val_iff T hT a _ _).2 ⟨fun d hd => extractDigits_lt a k v d (List.mem_reverse.1 hd), rfl⟩

/-- Writing the number of a string in as many digits gives the string back. -/
theorem writeMsbFirst_of_accumulate (T : Config.Tables) (hT : LegalTables T) (a : Alphabet) (str : List Byte) (v : Nat)
    (h : accumulate T a 0 str = .ok v) : writeMsbFirst T a (extractDigits a str.length v) = str := by
  obtain ⟨-, ds, hds, rfl⟩ := (accumulate_ok_iff T a str v).1 h
  obtain ⟨hlt, rfl⟩ := (map_val_iff T hT a str ds).1 hds
  rw [List.length_map, extractDigits_valueMsb a ds hlt, writeMsbFirst, List.reverse_reverse]

theorem two_pow_bits_le_accumulator (bits : Nat) (h : bits ≤ 128) : 2 ^ bits ≤ 2 ^ 128 :=
  Nat.pow_le_pow_right (by decide) h

/-- Settles O56: DIGITS(N, bits) digits hold the value, the accumulation reads it back, and unpacking cuts or fills. -/
theorem fixedWidthRoundTrip : Obligations.FixedWidthRoundTrip := by
  intro T a bits b hT h1 h128 hlen hval
  have hdigits := hval.trans_le (digitCount_enough a bits h128)
  have hfit := hval.trans_le (two_pow_bits_le_accumulator bits h128)
  have hacc := accumulate_writeMsbFirst T hT a _ _ hdigits hfit
  refine ⟨_, (encbResult_ok_iff T a bits b _).2 ⟨⟨h1, h128⟩, hlen, hval, rfl⟩, ?_⟩
  exact (decbResult_ok_iff T a bits _ _).2 ⟨⟨h1, h128⟩, _, hacc, hval, unpackLE_packLE_fill b _ (by omega)⟩

/-- Settles O57: ceil(bits / 8) bytes hold the value, so packing gives it back. -/
theorem fixedWidthDecodeThenEncode : Obligations.FixedWidthDecodeThenEncode := by
  intro T a bits str b hT h hlen
  obtain ⟨hbits, v, hacc, hval, rfl⟩ := (decbResult_ok_iff T a bits str b).1 h
  have hpack : packLE (unpackLE v ((bits + 7) / 8)) = v :=
    packLE_unpackLE v _ (hval.trans_le (Nat.pow_le_pow_right (by decide) (by omega)))
  refine (encbResult_ok_iff T a bits _ str).2 ⟨hbits, ?_, hpack.symm ▸ hval, ?_⟩
  · rw [unpackLE_length]; omega
  · rw [hpack, ← hlen]
    exact writeMsbFirst_of_accumulate T hT a str v hacc

/-! ### The two commands on the machine (60_exceptions.md R166 to R168) -/

theorem packLE_inputBytes (s : State) : packLE (inputBytes s) = inputValue s s.ilen.toNat := by
  rw [packLE_eq_sum, inputBytes_length]
  refine Finset.sum_congr rfl fun k hk => ?_
  rw [List.getD_eq_getElem?_getD, inputBytes_getElem? s k (Finset.mem_range.1 hk), Option.getD_some]

theorem exec_of_fault (i : Instr) (s : State) (c : Cause) (hcap : s.ilen.toNat ≤ Config.ibufCap)
    (h : resultOf i (inputBytes s) = .fault c) : exec i s = .next (withFault s c) := by
  rw [exec_eq, outcomeOf_of_le _ _ hcap, h]
  rfl

/-- An outcome other than BAD_LEN is the command's own. -/
theorem outcomeOf_inv (f : List Byte → Result) (s : State) (r : Result) (h : outcomeOf f s = r)
    (hr : r ≠ .fault .badLen) : f (inputBytes s) = r := by
  by_cases hcap : Config.ibufCap < s.ilen.toNat
  · exact (hr (h.symm.trans (outcomeOf_of_lt f s hcap))).elim
  · exact (outcomeOf_of_le f s (Nat.not_lt.1 hcap)).symm.trans h

/-- How a command ends in DONE: with a result that OLEN counts and OBUF holds, or with an error. -/
theorem exec_done_cases (i : Instr) (s t : State) (h : exec i s = .next t) (hd : t.opState = .done) :
    (∃ out, resultOf i (inputBytes s) = .ok out ∧ t.olen.toNat = out.length ∧ t.obuf = Memory.holding 0 out) ∨
    (∃ k, resultOf i (inputBytes s) = .err k ∧ t.err = .err k) := by
  obtain rfl := Host.Outcome.next.inj ((exec_eq i s).symm.trans h)
  cases hr : outcomeOf (resultOf i) s with
  | ok out => exact .inl ⟨out, outcomeOf_inv _ s _ hr nofun, result_olen i s out hr, rfl⟩
  | err k => exact .inr ⟨k, outcomeOf_inv _ s _ hr nofun, rfl⟩
  | fault c => rw [hr] at hd; cases hd

/-- 16 bytes always fit IBUF. -/
theorem le_ibufCap_of_le_sixteen (n : Nat) (h : n ≤ 16) : n ≤ Config.ibufCap := by
  have := ibufCap_bounds.1; omega

/-- Settles O16: the digits are the extracted ones, reversed. -/
theorem encbCompletes : Obligations.EncbCompletes := by
  intro a bits s h1 h128 hlen hval
  have hres := (encbResult_ok_iff romTables a bits (inputBytes s) _).2
    ⟨⟨h1, h128⟩, (inputBytes_length s).trans_le hlen, (packLE_inputBytes s).trans_lt hval, rfl⟩
  have hexec := exec_of_ok (.encb a bits) s _ (le_ibufCap_of_le_sixteen _ hlen) hres
  rw [packLE_inputBytes, writeMsbFirst_length, extractDigits_length] at hexec
  refine ⟨_, hexec, by simp, fun d hd => ?_, ?_⟩
  · exact extractDigits_lt a _ _ d (List.mem_reverse.1 hd)
  · exact extractDigits_value a _ _ (hval.trans_le (digitCount_enough a bits h128))

/-- Settles O17. -/
theorem encbFaultsInOrder : Obligations.EncbFaultsInOrder := by
  intro a bits s hcap
  have hfault (c : Cause) := exec_of_fault (.encb a bits) s c hcap
  have hlegal (h1 : 1 ≤ bits) (h128 : bits ≤ 128) := encbResult_of_legal romTables a bits (inputBytes s) ⟨h1, h128⟩
  have hinput := inputBytes_length s
  refine ⟨fun h => hfault _ ?_, fun h1 h128 hlen => hfault _ ?_, fun h1 h128 hlen hval => hfault _ ?_⟩
  · exact encbResult_badBits romTables a bits _ h
  · exact (hlegal h1 h128).trans (if_pos (hlen.trans_eq hinput.symm))
  · rw [← packLE_inputBytes] at hval
    exact (hlegal h1 h128).trans ((if_neg (by omega)).trans (if_pos hval))

/-- Settles O18: the string has the table's count of characters, which is the least that is enough. -/
theorem encbResultLength : Obligations.EncbResultLength := by
  intro a bits s t h hd
  rcases exec_done_cases (.encb a bits) s t h hd with ⟨out, hres, holen, hobuf⟩ | ⟨k, hres, -⟩
  · obtain ⟨⟨h1, h128⟩, -, -, rfl⟩ := (encbResult_ok_iff romTables a bits _ out).1 hres
    obtain ⟨hpos, henough, hleast⟩ := digitCountIsLeast a bits h1 h128
    have hcount : t.olen.toNat = digitCount a bits := by simpa using holen
    rw [← hcount] at hpos henough hleast
    have hmax := hcount.trans_le (digitCount_le a bits h128)
    refine ⟨hcount, hpos, hmax, (Nat.sub_le _ 1).trans_lt henough, hleast, fun j hj => ?_⟩
    rw [hobuf, memory_find_holding_zero]
    have hchar := List.getElem?_eq_getElem (holen ▸ hj)
    exact ⟨_, hchar, writeMsbFirst_mem romTables romTables_legal a _ _ _ (List.mem_of_getElem? hchar)⟩
  · exact (encbResult_ne_err romTables a bits _ k hres).elim

/-- The accumulation over the first characters of IBUF. -/
theorem accumulate_ibuf (a : Alphabet) (s : State) (d : Nat → Nat) (j : Nat)
    (hval : ∀ k, k < j → val romTables a (ibufByte s k) = some (d k)) (hfit : prefixValue (radix a) d j < 2 ^ 128) :
    accumulate romTables a 0 ((List.range j).map (ibufByte s)) = .ok (prefixValue (radix a) d j) := by
  refine accumulate_of_digits romTables a _ _ ?_ hfit
  rw [List.map_map, List.map_map]
  exact List.map_congr_left fun k hk => hval k (List.mem_range.1 hk)

/-- The input from its character `j` on. -/
theorem inputBytes_split (s : State) (j : Nat) (h : j < s.ilen.toNat) :
    ∃ rest, inputBytes s = (List.range j).map (ibufByte s) ++ ibufByte s j :: rest := by
  obtain ⟨n, hn⟩ : ∃ n, s.ilen.toNat = j + (n + 1) := ⟨s.ilen.toNat - j - 1, by omega⟩
  rw [inputBytes, hn, List.range_add, List.map_append, List.range_succ_eq_map]
  exact ⟨_, rfl⟩

/-- Settles O19: the value is below `2^bits`, so it fits the accumulator and passes the range check. -/
theorem decbCompletes : Obligations.DecbCompletes := by
  intro a bits s d h1 h128 hcap hchars hval
  have hacc := accumulate_ibuf a s d _ hchars (hval.trans_le (two_pow_bits_le_accumulator bits h128))
  have hres := (decbResult_ok_iff romTables a bits (inputBytes s) _).2 ⟨⟨h1, h128⟩, _, hacc, hval, rfl⟩
  have hexec := exec_of_ok (.decb a bits) s _ hcap hres
  rw [unpackLE_length] at hexec
  exact ⟨_, hexec, unpackLE_length _ _, unpackLE_getElem?_toNat _ _⟩

/-- Settles O20: the accumulation reaches character `j` with the value of those before it. -/
theorem decbStopsAtFirstBadCharacter : Obligations.DecbStopsAtFirstBadCharacter := by
  intro a bits s d j h1 h128 hcap hchars hfit
  have hacc := accumulate_ibuf a s d j hchars hfit
  have hstop (k : ErrKind) (hj : j < s.ilen.toNat)
      (hnext : ∀ rest, accumulate romTables a (prefixValue (radix a) d j) (ibufByte s j :: rest) = .error k) :
      exec (.decb a bits) s = .next (withError s k) := by
    obtain ⟨rest, hsplit⟩ := inputBytes_split s j hj
    refine exec_of_err (.decb a bits) s k hcap (decbResult_of_error romTables a bits _ ⟨h1, h128⟩ k ?_)
    rw [hsplit, accumulate_append romTables a _ _ 0 _ hacc, hnext]
  refine ⟨fun hj hinv => hstop _ hj fun rest => ?_, fun hj e he hover => hstop _ hj fun rest => ?_, fun hj _ hval => ?_⟩
  · rw [accumulate_cons, hinv]
  · rw [accumulate_cons, he]
    exact if_neg (Nat.not_lt.2 hover)
  · subst hj
    exact exec_of_err (.decb a bits) s _ hcap
      ((decbResult_of_value romTables a bits (inputBytes s) ⟨h1, h128⟩ _ hacc).trans (if_pos hval))

/-- Settles O21. -/
theorem decbFaultsOnBitCount : Obligations.DecbFaultsOnBitCount := fun a bits s hcap h =>
  exec_of_fault (.decb a bits) s _ hcap (decbResult_badBits romTables a bits _ h)

/-- Settles O22: a result is unpacked to ceil(bits / 8) bytes, and ERR tells a result from an error. -/
theorem decbResultLength : Obligations.DecbResultLength := by
  intro a bits s t h hd herr
  rcases exec_done_cases (.decb a bits) s t h hd with ⟨out, hres, holen, -⟩ | ⟨k, -, hk⟩
  · obtain ⟨⟨h1, h128⟩, v, -, -, rfl⟩ := (decbResult_ok_iff romTables a bits _ out).1 hres
    rw [unpackLE_length] at holen
    omega
  · cases herr.symm.trans hk

end Sys2Proof.Machine
end

section
/-! PROOFS. The family 43_fixed103.md: what 19 digits can reach, the bijection, and the two commands on the machine, which
are ENCB and DECB at 103 bits where their length checks pass (30_encoding.md R79). -/

namespace Sys2Proof.Machine

/-! ### Nineteen digits and the accumulator (43_fixed103.md R150, R153; 40_datapath.md R106) -/

/-- 19 digits write numbers of 104 bits at most. -/
theorem radix_pow_19_lt (a : Alphabet) : radix a ^ 19 < 2 ^ 104 := by cases a <;> decide

theorem prefixValue_lt (N : Nat) (d : Nat → Nat) (j : Nat) (h : ∀ k, k < j → d k < N) :
    prefixValue N d j < N ^ j := by
  have hlt := valueMsb_lt N ((List.range j).map d) (List.forall_mem_map.2 fun k hk => h k (List.mem_range.1 hk))
  rwa [List.length_map, List.length_range] at hlt

/-- The number that a string's characters write is below the power of the radix that its length allows. -/
theorem accumulate_ok_lt (T : Config.Tables) (hT : LegalTables T) (a : Alphabet) (cs : List Byte) (v : Nat)
    (h : accumulate T a 0 cs = .ok v) : v < radix a ^ cs.length := by
  obtain ⟨-, ds, hds, rfl⟩ := (accumulate_ok_iff T a cs v).1 h
  obtain ⟨hlt, rfl⟩ := (map_val_iff T hT a cs ds).1 hds
  rw [List.length_map]
  exact valueMsb_lt (radix a) ds hlt

/-- Where the characters still to come cannot carry the value out of the accumulator, only a lookup can fail: a digit
keeps the bound, as `v * N + d + 1` is at most `(v + 1) * N`. -/
theorem accumulate_error_of_fit (T : Config.Tables) (hT : LegalTables T) (a : Alphabet) (cs : List Byte) (v : Nat)
    (hfit : (v + 1) * radix a ^ cs.length ≤ 2 ^ 128) (k : ErrKind) (h : accumulate T a v cs = .error k) :
    k = .invalidChar := by
  induction cs generalizing v with
  | nil => cases h
  | cons c cs ih =>
    rw [accumulate_cons] at h
    split at h
    next => exact (Except.error.inj h).symm
    next d hd =>
      obtain ⟨hlt, -⟩ := (val_some_iff_chr T hT a c d).1 hd
      have hstep : v * radix a + d + 1 ≤ (v + 1) * radix a := by rw [Nat.add_mul]; omega
      have hrest : (v * radix a + d + 1) * radix a ^ cs.length ≤ 2 ^ 128 := by
        rw [List.length_cons, pow_succ', ← Nat.mul_assoc] at hfit
        exact (Nat.mul_le_mul_right _ hstep).trans hfit
      have hmac : v * radix a + d < 2 ^ 128 :=
        (Nat.le_mul_of_pos_right _ (Nat.pow_pos (radix_pos a))).trans hrest
      rw [if_pos hmac] at h
      exact ih _ hrest h

/-- The accumulation of 19 characters fails in a lookup only. -/
theorem accumulate_19_error (T : Config.Tables) (hT : LegalTables T) (a : Alphabet) (cs : List Byte)
    (hlen : cs.length = 19) (k : ErrKind) (h : accumulate T a 0 cs = .error k) : k = .invalidChar := by
  refine accumulate_error_of_fit T hT a cs 0 ?_ k h
  rw [hlen, Nat.zero_add, Nat.one_mul]
  exact (radix_pow_19_lt a).le.trans (Nat.pow_le_pow_right (by decide) (by decide))

/-- An accumulation over a string with a character outside the alphabet has no value. -/
theorem accumulate_ne_ok_of_invalid (T : Config.Tables) (a : Alphabet) (cs : List Byte) (c : Byte) (hc : c ∈ cs)
    (hinv : val T a c = none) (v : Nat) : accumulate T a 0 cs ≠ .ok v := by
  intro h
  obtain ⟨ds, hds, -⟩ := accumulate_ok T a cs v h
  have hnone : none ∈ ds.map some := hds ▸ hinv ▸ List.mem_map_of_mem hc
  simp at hnone

/-- Settles O27: 19 digits stay below `2^104`. -/
theorem dec103ChecksNeverFire : Obligations.Dec103ChecksNeverFire := by
  refine fun T a input hT hlen => ⟨fun h => ?_, fun v h => Nat.div_eq_of_lt ?_⟩
  · cases accumulate_19_error T hT a input hlen _ h
  · exact (hlen ▸ accumulate_ok_lt T hT a input v h).trans (radix_pow_19_lt a)

/-! ### The bijection (43_fixed103.md R154) -/

theorem enc103Result_badLen (T : Config.Tables) (a : Alphabet) (input : List Byte) (h : input.length ≠ 13) :
    enc103Result T a input = .fault .badLen := if_pos h

theorem dec103Result_dangling (T : Config.Tables) (a : Alphabet) (input : List Byte) (h : input.length ≠ 19) :
    dec103Result T a input = .err .dangling := if_pos h

/-- A result of DEC103 is one of DECB at 103 bits on 19 characters (30_encoding.md R79). -/
theorem decbResult_of_dec103Result_ok (T : Config.Tables) (a : Alphabet) (input out : List Byte)
    (h : dec103Result T a input = .ok out) : input.length = 19 ∧ decbResult T a 103 input = .ok out := by
  by_cases hlen : input.length = 19
  · exact ⟨hlen, dec103Result_eq_decbResult T a input hlen ▸ h⟩
  · cases (dec103Result_dangling T a input hlen).symm.trans h

/-- Settles O58, by the round trips of ENCB and DECB at 103 bits. -/
theorem fixed103Bijection : Obligations.Fixed103Bijection := by
  refine fun T a b str hT => ⟨fun hlen hval => ?_, fun h => ?_⟩
  · obtain ⟨out, henc, hdec⟩ := fixedWidthRoundTrip T a 103 b hT (by decide) (by decide) (by omega) hval
    have hout : out.length = 19 := by
      obtain ⟨-, -, -, rfl⟩ := (encbResult_ok_iff T a 103 b out).1 henc
      rw [writeMsbFirst_length, extractDigits_length, digitCount_103]
    refine ⟨out, (enc103Result_eq_encbResult T a b hlen).trans henc, hout, ?_⟩
    rw [dec103Result_eq_decbResult T a out hout, hdec, List.take_left' hlen]
  · obtain ⟨hlen, hdec⟩ := decbResult_of_dec103Result_ok T a str b h
    have henc := fixedWidthDecodeThenEncode T a 103 str b hT hdec (hlen.trans (digitCount_103 a).symm)
    obtain ⟨-, -, hval, -⟩ := (encbResult_ok_iff T a 103 b str).1 henc
    obtain ⟨-, v, -, -, rfl⟩ := (decbResult_ok_iff T a 103 str b).1 hdec
    have hb : (unpackLE v ((103 + 7) / 8)).length = 13 := unpackLE_length v _
    exact ⟨hb, hval, (enc103Result_eq_encbResult T a _ hb).trans henc⟩

/-! ### ENC103 on the machine (43_fixed103.md R151; 60_exceptions.md R166, R168, R170) -/

theorem exec_enc103_of_length (a : Alphabet) (s : State) (h : s.ilen.toNat = 13) :
    exec (.enc103 a) s = exec (.encb a 103) s := (fixed103IsFixedWidthAt103 a s).1 h

/-- Settles O23: ENCB at 103 bits, with DIGITS(N, 103) = 19. -/
theorem enc103Completes : Obligations.Enc103Completes := by
  intro a s hlen hval
  have hencb := encbCompletes a 103 s (by decide) (by decide) (by omega)
  rw [hlen, digitCount_103, ← exec_enc103_of_length a s hlen] at hencb
  exact hencb hval

/-- Every byte counts for its place at least. -/
theorem ibufByte_le_inputValue (s : State) (len k : Nat) (h : k < len) :
    (ibufByte s k).toNat * 2 ^ (8 * k) ≤ inputValue s len :=
  Finset.single_le_sum (f := fun k => (ibufByte s k).toNat * 2 ^ (8 * k)) (fun _ _ => Nat.zero_le _)
    (Finset.mem_range.2 h)

/-- Bit 7 of byte 12 is bit 103 of the value. -/
theorem two_pow_103_le_inputValue (s : State) (h : (ibufByte s 12).getLsbD 7 = true) : 2 ^ 103 ≤ inputValue s 13 :=
  calc 2 ^ 103 = 2 ^ 7 * 2 ^ (8 * 12) := rfl
    _ ≤ (ibufByte s 12).toNat * 2 ^ (8 * 12) := Nat.mul_le_mul_right _ (Nat.ge_two_pow_of_testBit h)
    _ ≤ inputValue s 13 := ibufByte_le_inputValue s 13 12 (by decide)

/-- Settles O24: a length above IBUF_CAP faults BAD_LEN as well, before the command's own check. -/
theorem enc103FaultsInOrder : Obligations.Enc103FaultsInOrder := by
  refine fun a s => ⟨fun hlen => ?_, fun hlen hbit => ?_⟩
  · by_cases hcap : Config.ibufCap < s.ilen.toNat
    · exact oversizedInputFaults (.enc103 a) s hcap
    · refine exec_of_fault (.enc103 a) s _ (Nat.not_lt.1 hcap) (enc103Result_badLen romTables a _ ?_)
      rwa [inputBytes_length]
  · obtain ⟨-, -, hexcess⟩ := encbFaultsInOrder a 103 s (le_ibufCap_of_le_sixteen _ (by omega))
    rw [exec_enc103_of_length a s hlen]
    exact hexcess (by decide) (by decide) (by omega) (hlen ▸ two_pow_103_le_inputValue s hbit)

/-! ### DEC103 on the machine (43_fixed103.md R152; 60_exceptions.md R160 to R162, R166, R167, R171 (a)) -/

theorem exec_dec103_of_length (a : Alphabet) (s : State) (h : s.ilen.toNat = 19) :
    exec (.dec103 a) s = exec (.decb a 103) s := (fixed103IsFixedWidthAt103 a s).2 h

/-- Settles O25: DECB at 103 bits, with ceil(103 / 8) = 13. -/
theorem dec103Completes : Obligations.Dec103Completes := by
  intro a s d hlen hchars hval
  have hcap : s.ilen.toNat ≤ Config.ibufCap := by have := ibufCap_bounds.1; omega
  have hdecb := decbCompletes a 103 s d (by decide) (by decide) hcap
  rw [hlen, ← exec_dec103_of_length a s hlen] at hdecb
  exact hdecb hchars hval

/-- Settles O26: with 19 characters the accumulation fails in a lookup only, and a value it reaches meets DECB's range
check at 103 bits. -/
theorem dec103ErrorsInOrder : Obligations.Dec103ErrorsInOrder := by
  refine fun a s hcap => ⟨fun hlen => ?_, fun hlen hinv => ?_, fun hlen d hchars hval => ?_⟩
  · refine exec_of_err (.dec103 a) s _ hcap (dec103Result_dangling romTables a _ ?_)
    rwa [inputBytes_length]
  · obtain ⟨k, hk, hnone⟩ := hinv
    have hmem : ibufByte s k ∈ inputBytes s := List.mem_of_getElem? (inputBytes_getElem? s k (by omega))
    have hacc : accumulate romTables a 0 (inputBytes s) = .error .invalidChar := by
      cases hr : accumulate romTables a 0 (inputBytes s) with
      | ok v => exact (accumulate_ne_ok_of_invalid romTables a _ _ hmem hnone v hr).elim
      | error e => rw [accumulate_19_error romTables romTables_legal a _ ((inputBytes_length s).trans hlen) e hr]
    rw [exec_dec103_of_length a s hlen]
    exact exec_of_err (.decb a 103) s _ hcap (decbResult_of_error romTables a 103 _ (by decide) _ hacc)
  · have hdigits (k : Nat) (hk : k < 19) : d k < radix a := romVal_lt a _ _ (hchars k hk)
    have hfit : prefixValue (radix a) d 19 < 2 ^ 128 :=
      ((prefixValue_lt _ d 19 hdigits).trans (radix_pow_19_lt a)).trans (Nat.pow_lt_pow_right (by decide) (by decide))
    obtain ⟨-, -, hrange⟩ := decbStopsAtFirstBadCharacter a 103 s d 19 (by decide) (by decide) hcap hchars hfit
    rw [exec_dec103_of_length a s hlen]
    exact hrange hlen.symm (by decide) hval

end Sys2Proof.Machine
end

section
/-! PROOFS. The family 60_exceptions.md: the engine at rest, the faults and errors of each command with their causes, the
frame of a completion, and the fault that only a reset clears. -/

namespace Sys2Proof.Machine

/-! ### The engine outside BUSY (60_exceptions.md section 3, R178) -/

theorem engineTurn_of_not_busy (s : State) (h : s.opState ≠ .busy) : engineTurn s = .next s := by
  rcases engineTurn_cases s with ⟨-, e⟩ | ⟨hb, -⟩ | ⟨hb, -⟩
  · exact e
  all_goals exact absurd hb h

/-- Settles O8: `popMove` is the move taken off the schedule. -/
theorem engineRestsUnlessBusy : Obligations.EngineRestsUnlessBusy :=
  fun s hb ht => (step_engine s ht).trans (engineTurn_of_not_busy (popMove s) hb)

/-! ### The faults of each command (60_exceptions.md R163 to R165, R169, R170) -/

/-- The three faults of ENCB, each check on what the ones before it let pass. -/
theorem encbResult_fault_iff (T : Config.Tables) (a : Alphabet) (bits : Nat) (input : List Byte) (c : Cause) :
    encbResult T a bits input = .fault c ↔
      c = .badBits ∧ (bits = 0 ∨ 128 < bits) ∨
      c = .badLen ∧ 1 ≤ bits ∧ bits ≤ 128 ∧ 16 < input.length ∨
      c = .excess ∧ 1 ≤ bits ∧ bits ≤ 128 ∧ input.length ≤ 16 ∧ 2 ^ bits ≤ packLE input := by
  by_cases hbits : 1 ≤ bits ∧ bits ≤ 128
  · have hlegal : ¬ (bits = 0 ∨ 128 < bits) := by omega
    rw [encbResult_of_legal T a bits input hbits]
    split_ifs with hlen hval
    · simp [hlegal, hbits, hlen, eq_comm]
    · simp [hlegal, hbits, hlen, Nat.not_lt.1 hlen, hval, eq_comm]
    · simp [hlegal, hlen, hval]
  · have hbad : bits = 0 ∨ 128 < bits := by omega
    rw [encbResult_badBits T a bits input hbad, ← and_assoc (a := 1 ≤ bits), ← and_assoc (a := 1 ≤ bits)]
    simp [hbad, hbits, eq_comm]

/-- DECB faults on its bit count only. -/
theorem decbResult_fault_iff (T : Config.Tables) (a : Alphabet) (bits : Nat) (input : List Byte) (c : Cause) :
    decbResult T a bits input = .fault c ↔ c = .badBits ∧ (bits = 0 ∨ 128 < bits) := by
  by_cases hbits : 1 ≤ bits ∧ bits ≤ 128
  · have hlegal : ¬ (bits = 0 ∨ 128 < bits) := by omega
    cases hacc : accumulate T a 0 input with
    | error k => simp [decbResult_of_error T a bits input hbits k hacc, hlegal]
    | ok v =>
      rw [decbResult_of_value T a bits input hbits v hacc]
      split_ifs <;> simp [hlegal]
  · have hbad : bits = 0 ∨ 128 < bits := by omega
    simp [decbResult_badBits T a bits input hbad, hbad, eq_comm]

/-- On 13 bytes ENC103 faults as ENCB at 103 bits does, which leaves EXCESS. -/
theorem enc103Result_fault_iff (T : Config.Tables) (a : Alphabet) (input : List Byte) (c : Cause) :
    enc103Result T a input = .fault c ↔
      c = .badLen ∧ input.length ≠ 13 ∨ c = .excess ∧ input.length = 13 ∧ 2 ^ 103 ≤ packLE input := by
  by_cases hlen : input.length = 13
  · rw [enc103Result_eq_encbResult T a input hlen, encbResult_fault_iff]
    simp [hlen]
  · rw [enc103Result_badLen T a input hlen]
    simp [hlen, eq_comm]

theorem decResult_ne_fault (T : Config.Tables) (a : Alphabet) (input : List Byte) (c : Cause) :
    decResult T a input ≠ .fault c := by
  unfold decResult
  split <;> nofun

/-- DEC103 answers a wrong length with an error, and its bit count is a legal one of DECB. -/
theorem dec103Result_ne_fault (T : Config.Tables) (a : Alphabet) (input : List Byte) (c : Cause) :
    dec103Result T a input ≠ .fault c := by
  by_cases hlen : input.length = 19
  · rw [dec103Result_eq_decbResult T a input hlen, Ne, decbResult_fault_iff]
    omega
  · rw [dec103Result_dangling T a input hlen]
    nofun

/-- Every fault a command raises on an input, with its cause; ILLEGAL_CMD is none of them. -/
theorem resultOf_fault_iff (i : Instr) (input : List Byte) (c : Cause) :
    resultOf i input = .fault c ↔
      (c = .badBits ∧ ∃ a bits, (i = .encb a bits ∨ i = .decb a bits) ∧ (bits = 0 ∨ 128 < bits)) ∨
      (c = .badLen ∧ ((∃ a bits, i = .encb a bits ∧ 1 ≤ bits ∧ bits ≤ 128 ∧ 16 < input.length) ∨
        ∃ a, i = .enc103 a ∧ input.length ≠ 13)) ∨
      (c = .excess ∧ ((∃ a bits, i = .encb a bits ∧ 1 ≤ bits ∧ bits ≤ 128 ∧ input.length ≤ 16 ∧
        2 ^ bits ≤ packLE input) ∨ ∃ a, i = .enc103 a ∧ input.length = 13 ∧ 2 ^ 103 ≤ packLE input)) := by
  cases i with
  | enc a => simp [resultOf, encResult]
  | dec a => simp [resultOf, decResult_ne_fault]
  | encb a bits => simp [resultOf, encbResult_fault_iff]
  | decb a bits => simp [resultOf, decbResult_fault_iff]
  | enc103 a => simp [resultOf, enc103Result_fault_iff]
  | dec103 a => simp [resultOf, dec103Result_ne_fault]

/-- A command faults BAD_LEN on an input that IBUF cannot hold, else as its own function does (30_encoding.md R77). -/
theorem outcomeOf_fault_iff (f : List Byte → Result) (s : State) (c : Cause) :
    outcomeOf f s = .fault c ↔
      c = .badLen ∧ Config.ibufCap < s.ilen.toNat ∨ s.ilen.toNat ≤ Config.ibufCap ∧ f (inputBytes s) = .fault c := by
  by_cases hcap : Config.ibufCap < s.ilen.toNat
  · rw [outcomeOf_of_lt f s hcap]
    simp [hcap, eq_comm]
  · rw [outcomeOf_of_le f s (Nat.not_lt.1 hcap)]
    simp [hcap, Nat.not_lt.1 hcap]

/-- FCAUSE reads as the code of a cause exactly when it holds that cause (10_state.md R28). -/
theorem statusWord_cause_iff (s : State) (c : Cause) :
    (statusWord s).extractLsb' 4 3 = BitVec.ofNat 3 (fcauseCode (.cause c)) ↔ s.fcause = .cause c := by
  rw [statusWord_fcause]
  cases s.fcause with
  | none => cases c <;> decide
  | cause c' => cases c' <;> cases c <;> decide

/-- From a state without a cause, STATUS shows the code of a cause exactly when the command's outcome is that fault. -/
theorem exec_fcauseCode_iff (i : Instr) (s t : State) (hs : s.fcause = .none) (h : exec i s = .next t) (c : Cause) :
    (statusWord t).extractLsb' 4 3 = BitVec.ofNat 3 (fcauseCode (.cause c)) ↔ outcomeOf (resultOf i) s = .fault c := by
  obtain rfl := Host.Outcome.next.inj ((exec_eq i s).symm.trans h)
  rw [statusWord_cause_iff, complete_fcause_iff _ s c hs]

/-- Settles O30, cause by cause; an input that EXCESS speaks of fits IBUF. -/
theorem faultCausesExact : Obligations.FaultCausesExact := by
  intro i s t hs h
  have hcode (c : Cause) := (exec_fcauseCode_iff i s t hs h c).trans (outcomeOf_fault_iff _ s c)
  simp only [resultOf_fault_iff, inputBytes_length, packLE_inputBytes] at hcode
  refine ⟨(hcode .badLen).trans ?_, (hcode .badBits).trans ?_, (hcode .excess).trans ?_, mt (hcode .illegalCmd).1 ?_⟩
  · simp only [reduceCtorEq, true_and, false_and, false_or, or_false, ← Nat.not_lt (a := Config.ibufCap)]
    rw [or_and_left, and_iff_right (em _)]
  · simp
  · simp only [reduceCtorEq, true_and, false_and, false_or]
    constructor
    · rintro ⟨-, hencb | ⟨a, hi, hlen, hval⟩⟩
      · exact .inl hencb
      · exact .inr ⟨a, hi, hlen, hlen ▸ hval⟩
    · rintro (⟨a, bits, hi, h1, h128, hlen, hval⟩ | ⟨a, hi, hlen, hval⟩)
      · exact ⟨le_ibufCap_of_le_sixteen _ hlen, .inl ⟨a, bits, hi, h1, h128, hlen, hval⟩⟩
      · exact ⟨le_ibufCap_of_le_sixteen _ (by omega), .inr ⟨a, hi, hlen, hlen.symm ▸ hval⟩⟩
  · simp

/-! ### The errors of each command (60_exceptions.md R160 to R162, R171) -/

/-- A group has no number exactly when one of its characters is outside the alphabet. -/
theorem groupValue_none_iff (T : Config.Tables) (a : Alphabet) (cs : List Byte) :
    groupValue T a cs = none ↔ ∃ c ∈ cs, val T a c = none := by
  induction cs with
  | nil => simp [groupValue]
  | cons c cs ih =>
    rw [groupValue, List.exists_mem_cons_iff, ← ih]
    cases hc : val T a c <;> simp

/-- A full group fails in a lookup or in the bound on its number. -/
theorem groupAnswer_error_inv (bound : Nat) (bytes : Nat → List Byte) (v : Option Nat) (k : ErrKind)
    (h : groupAnswer bound bytes v = .error k) : k = .overflow ∨ k = .invalidChar ∧ v = none := by
  cases v with
  | none => exact .inr ⟨(Except.error.inj h).symm, rfl⟩
  | some x =>
    rw [groupAnswer] at h
    split_ifs at h
    exact .inl (Except.error.inj h).symm

/-- The three ways DEC's group-by-group decoding fails: the leftover character of DANGLING is what a length of 1 modulo 3
leaves. -/
theorem decodeGroups_error_inv (T : Config.Tables) (a : Alphabet) (cs : List Byte) (k : ErrKind)
    (h : decodeGroups T a cs = .error k) :
    k = .overflow ∨ (k = .invalidChar ∧ ∃ c ∈ cs, val T a c = none) ∨ (k = .dangling ∧ cs.length % 3 = 1) := by
  induction cs using groupsOfThree.induct with
  | case1 => cases h
  | case2 c =>
    rw [decodeGroups_leftover] at h
    split_ifs at h with hc <;> cases h
    · exact .inr (.inl ⟨rfl, c, List.mem_singleton_self c, hc⟩)
    · exact .inr (.inr ⟨rfl, rfl⟩)
  | case3 c0 c1 =>
    rw [decodeGroups_pair] at h
    rw [← groupValue_none_iff]
    exact (groupAnswer_error_inv _ _ _ k h).imp_right .inl
  | case4 c0 c1 c2 rest ih =>
    rw [decodeGroups_triple] at h
    cases htriple : groupAnswer 65535 pairBytes (groupValue T a [c0, c1, c2]) with
    | error k' =>
      rw [htriple] at h
      obtain rfl := Except.error.inj h
      rcases groupAnswer_error_inv _ _ _ _ htriple with hk | ⟨hk, hnone⟩
      · exact .inl hk
      · obtain ⟨c, hc, hinv⟩ := (groupValue_none_iff T a _).1 hnone
        exact .inr (.inl ⟨hk, c, List.mem_append_left rest hc, hinv⟩)
    | ok bytes =>
      cases hrest : decodeGroups T a rest with
      | ok more => rw [htriple, hrest] at h; cases h
      | error k' =>
        rw [htriple, hrest] at h
        obtain rfl := Except.error.inj h
        rcases ih hrest with hk | ⟨hk, c, hc, hinv⟩ | ⟨hk, hlen⟩
        · exact .inl hk
        · exact .inr (.inl ⟨hk, c, List.mem_append_right [c0, c1, c2] hc, hinv⟩)
        · exact .inr (.inr ⟨hk, by simpa [Nat.add_assoc] using hlen⟩)

/-- The accumulation fails in a lookup or in the multiply-add. -/
theorem accumulate_error_inv (T : Config.Tables) (a : Alphabet) (cs : List Byte) (v : Nat) (k : ErrKind)
    (h : accumulate T a v cs = .error k) : k = .overflow ∨ k = .invalidChar ∧ ∃ c ∈ cs, val T a c = none := by
  induction cs generalizing v with
  | nil => cases h
  | cons c cs ih =>
    rw [accumulate_cons] at h
    split at h
    next hc => exact .inr ⟨(Except.error.inj h).symm, c, List.mem_cons_self, hc⟩
    next d hd =>
      split_ifs at h with hlt
      · exact (ih _ h).imp_right fun ⟨hk, c', hc', hinv⟩ => ⟨hk, c', List.mem_cons_of_mem c hc', hinv⟩
      · exact .inl (Except.error.inj h).symm

/-- DECB fails in its accumulation or in the range check. -/
theorem decbResult_err_inv (T : Config.Tables) (a : Alphabet) (bits : Nat) (input : List Byte) (k : ErrKind)
    (h : decbResult T a bits input = .err k) : k = .overflow ∨ k = .invalidChar ∧ ∃ c ∈ input, val T a c = none := by
  by_cases hbits : 1 ≤ bits ∧ bits ≤ 128
  · cases hacc : accumulate T a 0 input with
    | error k' =>
      obtain rfl := Result.err.inj ((decbResult_of_error T a bits input hbits k' hacc).symm.trans h)
      exact accumulate_error_inv T a input 0 k' hacc
    | ok v =>
      rw [decbResult_of_value T a bits input hbits v hacc] at h
      split_ifs at h
      exact .inl (Result.err.inj h).symm
  · cases (decbResult_badBits T a bits input (by omega)).symm.trans h

theorem enc103Result_ne_err (T : Config.Tables) (a : Alphabet) (input : List Byte) (k : ErrKind) :
    enc103Result T a input ≠ .err k := by
  by_cases hlen : input.length = 13
  · exact enc103Result_eq_encbResult T a input hlen ▸ encbResult_ne_err T a 103 input k
  · rw [enc103Result_badLen T a input hlen]
    nofun

theorem decResult_err_iff (T : Config.Tables) (a : Alphabet) (str : List Byte) (k : ErrKind) :
    decResult T a str = .err k ↔ decodeGroups T a str = .error k := by
  unfold decResult
  cases decodeGroups T a str <;> simp

/-- Every error a command raises on an input, with its cause: only decoders raise one. -/
theorem resultOf_err_inv (i : Instr) (input : List Byte) (k : ErrKind) (h : resultOf i input = .err k) :
    (∃ a, i = .dec a ∨ (∃ bits, i = .decb a bits) ∨ i = .dec103 a) ∧
    (k = .overflow ∨ (k = .invalidChar ∧ ∃ c ∈ input, val romTables i.alphabet c = none) ∨
      (k = .dangling ∧ ∃ a, (i = .dec a ∧ input.length % 3 = 1) ∨ (i = .dec103 a ∧ input.length ≠ 19))) := by
  cases i with
  | enc a => cases h
  | dec a =>
    refine ⟨⟨a, .inl rfl⟩, ?_⟩
    exact (decodeGroups_error_inv _ a _ k ((decResult_err_iff _ a _ k).1 h)).imp_right
      (Or.imp_right fun ⟨hk, hlen⟩ => ⟨hk, a, .inl ⟨rfl, hlen⟩⟩)
  | encb a bits => exact absurd h (encbResult_ne_err romTables a bits input k)
  | decb a bits =>
    exact ⟨⟨a, .inr (.inl ⟨bits, rfl⟩)⟩, (decbResult_err_inv romTables a bits input k h).imp_right .inl⟩
  | enc103 a => exact absurd h (enc103Result_ne_err romTables a input k)
  | dec103 a =>
    refine ⟨⟨a, .inr (.inr rfl)⟩, ?_⟩
    by_cases hlen : input.length = 19
    · have hdecb := (dec103Result_eq_decbResult romTables a input hlen).symm.trans h
      exact (decbResult_err_inv romTables a 103 input k hdecb).imp_right .inl
    · obtain rfl := Result.err.inj ((dec103Result_dangling romTables a input hlen).symm.trans h)
      exact .inr (.inr ⟨rfl, a, .inr ⟨rfl, hlen⟩⟩)

/-- A command that ends in DONE with an error code in ERR has raised that error. -/
theorem resultOf_of_exec_err (i : Instr) (s t : State) (k : ErrKind) (h : exec i s = .next t) (hd : t.opState = .done)
    (hk : t.err = .err k) : resultOf i (inputBytes s) = .err k := by
  obtain rfl := Host.Outcome.next.inj ((exec_eq i s).symm.trans h)
  cases hr : outcomeOf (resultOf i) s with
  | ok out => rw [hr] at hk; cases hk
  | err k' =>
    rw [hr] at hk
    obtain rfl := ErrField.err.inj hk
    exact outcomeOf_inv _ s _ hr nofun
  | fault c => rw [hr] at hd; cases hd

/-- An input character is a byte of IBUF below ILEN. -/
theorem mem_inputBytes_iff (s : State) (c : Byte) : c ∈ inputBytes s ↔ ∃ k, k < s.ilen.toNat ∧ ibufByte s k = c := by
  simp [inputBytes]

/-- Settles O31: the error in ERR is one the command raised on its input. -/
theorem errorKindsHaveTheirCauses : Obligations.ErrorKindsHaveTheirCauses := by
  intro i s t h hd
  have hcause (k : ErrKind) (hk : t.err = .err k) := resultOf_err_inv i _ k (resultOf_of_exec_err i s t k h hd hk)
  refine ⟨fun hne => ?_, fun hk => ?_, fun hk => ?_⟩
  · cases hk : t.err with
    | ok => exact absurd hk hne
    | err k => exact (hcause k hk).1
  · rcases (hcause _ hk).2 with e | ⟨e, -⟩ | ⟨-, hlen⟩
    · cases e
    · cases e
    · rwa [inputBytes_length] at hlen
  · rcases (hcause _ hk).2 with e | ⟨-, c, hc, hinv⟩ | ⟨e, -⟩
    · cases e
    · obtain ⟨n, hn, rfl⟩ := (mem_inputBytes_iff s c).1 hc
      exact ⟨n, hn, hinv⟩
    · cases e

/-! ### What a completion writes (60_exceptions.md R166 to R168; 20_memory.md R59) -/

/-- No completion writes a byte of IBUF, specified or not. -/
theorem ibufByte_complete (r : Result) (s : State) (k : Nat) : ibufByte (complete r s) k = ibufByte s k := by
  obtain ⟨-, -, hibuf, hepoch, -⟩ := complete_keeps r s
  rw [ibufByte, ibufByte, hibuf, hepoch]

/-- Settles O32, by the outcome; OLEN counts every result (`result_olen`). -/
theorem commandFrame : Obligations.CommandFrame := by
  intro i s t h
  obtain rfl := Host.Outcome.next.inj ((exec_eq i s).symm.trans h)
  obtain ⟨hcmd, hilen, hibuf, hepoch, hfresh, hanswer, hschedule⟩ := complete_keeps (outcomeOf (resultOf i) s) s
  refine ⟨hcmd, hilen, hibuf, ibufByte_complete _ s, hepoch, hfresh, hanswer, hschedule, ?_⟩
  cases hr : outcomeOf (resultOf i) s with
  | ok out => exact .inl ⟨rfl, rfl, rfl, out, result_olen i s out hr, memory_find_holding_zero out⟩
  | err k => exact .inr (.inl ⟨rfl, nofun, rfl, rfl, memory_find_nil⟩)
  | fault c => exact .inr (.inr ⟨rfl, rfl, rfl, nofun, memory_find_nil⟩)

/-! ### A fault stays until reset (60_exceptions.md R168, R174) -/

/-- What a fault records and keeps: STATE, FCAUSE, CMD, ILEN, IBUF, ERR and OLEN. -/
def faultRecord (s : State) : OpState × FCauseField × Word × Word × Memory × ErrField × Word :=
  (s.opState, s.fcause, s.cmd, s.ilen, s.ibuf, s.err, s.olen)

theorem faultRecord_eq_iff (s t : State) :
    faultRecord t = faultRecord s ↔ t.opState = s.opState ∧ t.fcause = s.fcause ∧ t.cmd = s.cmd ∧ t.ilen = s.ilen ∧
      t.ibuf = s.ibuf ∧ t.err = s.err ∧ t.olen = s.olen := by
  simp only [faultRecord, Prod.mk.injEq]

/-- Outside reset, no step from FAULT touches the record: the host's moves are dropped or reads, the engine rests. -/
theorem step_faultRecord (s t : State) (hs : s.opState = .fault) (hr : nextMove s ≠ .reset) (h : step s = .next t) :
    faultRecord t = faultRecord s := by
  rcases step_cases s t h with ⟨act, -, rfl⟩ | ⟨-, he⟩ | ⟨hm, -⟩
  · have hna : ¬ accepts (popMove s) = true := (not_accepts_iff _).2 (.inr hs)
    rcases hostAct_of_not_accepts act (popMove s) hna with e | ⟨v, e⟩ | ⟨v, e⟩ <;> rw [e] <;> rfl
  · have hb : (popMove s).opState ≠ .busy := by simp [hs]
    obtain rfl := Host.Outcome.next.inj ((engineTurn_of_not_busy (popMove s) hb).symm.trans he)
    rfl
  · exact absurd hm hr

/-- A move that comes next is scheduled, or the engine's. -/
theorem nextMove_ne_reset (s : State) (h : Move.reset ∉ s.schedule) : nextMove s ≠ .reset := by
  rw [nextMove]
  cases hs : s.schedule with
  | nil => nofun
  | cons m ms =>
    rintro rfl
    exact h (hs ▸ List.mem_cons_self)

/-- The record is kept along every run, by induction on its length. -/
theorem run_faultRecord (k : Nat) (s t : State) (hs : s.opState = .fault) (hr : Move.reset ∉ s.schedule)
    (h : Host.Core.run core k s = .next t) : faultRecord t = faultRecord s := by
  induction k generalizing s with
  | zero => cases h; rfl
  | succ k ih =>
    obtain ⟨u, hu⟩ := step_has_next s
    have hrec := step_faultRecord s u hs (nextMove_ne_reset s hr) hu
    have hop : u.opState = .fault := ((faultRecord_eq_iff s u).1 hrec).1.trans hs
    have hsched : Move.reset ∉ u.schedule := fun hm => hr (List.mem_of_mem_tail (step_schedule s u hu ▸ hm))
    exact (ih u hop hsched ((run_succ k s u hu).symm.trans h)).trans hrec

/-- Settles O46. -/
theorem faultIsStickyUntilReset : Obligations.FaultIsStickyUntilReset := by
  intro k s t hs hr h
  obtain ⟨hop, hkept⟩ := (faultRecord_eq_iff s t).1 (run_faultRecord k s t hs hr h)
  exact ⟨hop.trans hs, hkept⟩

end Sys2Proof.Machine
end

section
/-! PROOFS. The family 70_reset_and_hazards.md: what reset leaves, what a host cannot touch while a command is in flight,
and the engine that always completes. -/

namespace Sys2Proof.Machine

/-! ### Reset (70_reset_and_hazards.md R190, R191) -/

/-- The codes of IDLE, OK and NONE are zero (10_state.md R26 to R28). -/
theorem statusWord_eq_zero (s : State) (ho : s.opState = .idle) (he : s.err = .ok) (hf : s.fcause = .none) :
    statusWord s = 0#32 := by
  rw [statusWord, ho, he, hf]
  rfl

/-- Settles O42: power-on and a later reset set the same fields. -/
theorem resetValues : Obligations.ResetValues := by
  rintro s t (rfl | rfl)
  · exact ⟨reset_cmd, reset_opState, reset_err, reset_fcause,
      statusWord_eq_zero _ reset_opState reset_err reset_fcause, reset_ilen, reset_olen, reset_ibuf, reset_obuf⟩
  · exact ⟨resetBlock_cmd s, resetBlock_opState s, resetBlock_err s, resetBlock_fcause s,
      statusWord_eq_zero _ (resetBlock_opState s) (resetBlock_err s) (resetBlock_fcause s),
      resetBlock_ilen s, resetBlock_olen s, resetBlock_ibuf s, resetBlock_obuf s⟩

/-- Power-on is a reset that starts the count of resets (R190: "power-on and a later reset do the same"). -/
theorem reset_eq_resetBlock : State.reset = { resetBlock State.reset with epoch := 0 } := rfl

/-- The invariant does not speak of the count of resets. -/
theorem inv_epoch (s : State) (h : Inv s) (n : Nat) : Inv { s with epoch := n } :=
  ⟨h.ibufWf, h.ibufRange, h.obufHolds, h.obufOnlyResult, h.errNoOutput, h.faultCause, h.idleClean⟩

/-- Settles O43: reset makes the invariant true, and power-on is one. -/
theorem invariantAtReset : Obligations.InvariantAtReset := by
  unfold Obligations.InvariantAtReset
  rw [reset_eq_resetBlock]
  exact inv_epoch _ (inv_resetBlock State.reset) 0

/-! ### The host's moves in BUSY and FAULT (70_reset_and_hazards.md R194) -/

/-- Settles O40, by what a block that does not accept leaves of a host action: nothing, or the record of a read. -/
theorem hostCannotTouchBusyBlock : Obligations.HostCannotTouchBusyBlock := by
  intro act s hs
  rcases hostAct_of_not_accepts act s ((not_accepts_iff s).2 hs) with e | ⟨v, e⟩ | ⟨v, e⟩
  · exact ⟨s.answer, s.fresh, e⟩
  · exact ⟨some v, s.fresh, e⟩
  · exact ⟨some v, s.fresh + 1, e⟩

/-! ### The engine always completes (70_reset_and_hazards.md R196) -/

/-- The engine's turn ends outside BUSY: it completes the command in flight, or there was none. -/
theorem engineTurn_opState_ne_busy (s t : State) (h : engineTurn s = .next t) : t.opState ≠ .busy := by
  have ht := engineTurn_transition s t h
  by_cases hb : s.opState = .busy
  · rw [AllowedTransition, if_pos hb] at ht
    rcases ht with hd | hf
    · simp [hd]
    · simp [hf]
  · rw [AllowedTransition, if_neg hb] at ht
    exact ht ▸ hb

/-- With no move scheduled the engine has the turn, so the step ends outside BUSY. -/
theorem step_opState_ne_busy (s t : State) (hs : s.schedule = []) (h : step s = .next t) : t.opState ≠ .busy :=
  engineTurn_opState_ne_busy (popMove s) t ((step_engine s (.inl hs)).symm.trans h)

/-- Settles O11, by induction on the schedule: each step takes one move off it, and the step after the last move is the
engine's. -/
theorem engineAlwaysCompletes : Obligations.EngineAlwaysCompletes := by
  intro s
  induction hs : s.schedule generalizing s with
  | nil =>
    obtain ⟨t, ht⟩ := step_has_next s
    exact ⟨t, run_succ 0 s t ht, step_opState_ne_busy s t hs ht⟩
  | cons m ms ih =>
    obtain ⟨u, hu⟩ := step_has_next s
    have hsched : u.schedule = ms := by rw [step_schedule s u hu, hs, List.tail_cons]
    obtain ⟨t, hrun, ht⟩ := ih u hsched
    exact ⟨t, (run_succ (ms.length + 1) s u hu).trans hrun, ht⟩

end Sys2Proof.Machine
end
